-- ==== Sys2Proof/Config.lean ====
section
/-! DEFINITION. The parameters of one instance (00_scope.md R7 to R10, 70_reset_and_hazards.md R116). The host chooses
them before its first command; no command changes them. They are plain data carried by the state, so that every
statement about a state holds for every choice of them. -/

namespace Sys2Proof

/-- `HEADER_LEN`, the length of the RTP fixed header; fixed, not a parameter (R7). -/
abbrev headerLen : Nat := 12

/-- The parameters (R8, R9, R10). -/
structure Config where
  /-- `SEQ_INIT`: the value of SEQ after power-on (R10). -/
  seqInit : BitVec 16
  /-- `PKT_MAX`: the longest packet operand of DECODE and FEED (R10). -/
  pktMax : Nat
  /-- `EMIT_MAX`: the longest data operand of EMIT (R10). -/
  emitMax : Nat
  /-- `MAX_PARTS`: the most parts a frame may hold; `none` is unbounded (R10). -/
  maxParts : Option Nat
  /-- `FRAME_BUF_MAX`: the capacity of the frame data buffer in bytes (R9). -/
  frameBufMax : Nat
  /-- `MAX_PACKET_LEN`: the largest packet of EMIT's raw path (R8). -/
  maxPacketLen : Nat
  deriving DecidableEq, Repr

/-- The constraints R8 and R10 put on the parameters. -/
def Config.valid (c : Config) : Bool :=
  decide (headerLen < c.maxPacketLen) && decide (headerLen ≤ c.pktMax) && decide (1 ≤ c.emitMax) &&
    (match c.maxParts with
     | none => true
     | some n => decide (2 ≤ n))

/-- The parameters `State.reset` uses: the spec's defaults for `MAX_PACKET_LEN` and `FRAME_BUF_MAX` (R8, R9), and for the
four open parameters the values 95_test_vectors.md uses (R10). DESIGN CHOICE for the open four, unsafe for a claim about
`State.reset` alone: log 1. -/
def Config.default : Config where
  seqInit := 0#16
  pktMax := 65535
  emitMax := 65535
  maxParts := none
  frameBufMax := 1048576
  maxPacketLen := 1456

end Sys2Proof
end

