-- ==== Sys2Proof/Word.lean ====
section
/-! DEFINITION. The word types: a byte and a byte sequence (00_scope.md R11, R12), and the fixed widths of the wire
fields (R13). Offsets, lengths and counts are natural numbers (R13). -/

namespace Sys2Proof

/-- A byte; bit 7 is its most significant bit (R11). -/
abbrev Byte := BitVec 8

/-- A finite byte sequence, byte 0 first on the wire (R12). -/
abbrev Bytes := List Byte

/-- `u16` (R13). -/
abbrev U16 := BitVec 16

/-- `u32` (R13). -/
abbrev U32 := BitVec 32

end Sys2Proof
end

