-- ==== Sys2Proof/Syntax.lean ====
section
/-! DEFINITION. The syntax: the command as the host gives it (30_encoding.md R57), and one constructor per row of
spec/opcode_table.json. The five commands and the illegal words are the CMD32 rows (R58, R61). The rows of FEED's
dispatch (NALHDR8 of R74, FUA16 of R75) are instructions of their own: each is a FEED command together with the packet
that selects the row (log 3). -/

namespace Sys2Proof

/-- A command: the command word, the two argument words and the byte operand, whose length comes with it (R57). -/
structure Command where
  cmd : U32
  arg0 : U32
  arg1 : U32
  operand : Bytes
  deriving DecidableEq, Repr

/-- The RTPType tag of an EMIT (R60). -/
inductive RtpType where
  | audio
  | video
  | audioControl
  | videoControl
  deriving DecidableEq, Repr

/-- One constructor per row of spec/opcode_table.json. -/
inductive Instr where
  /-- RESET (R115): `seq = ARG0[15:0]`. -/
  | cmdReset (seq : U16)
  /-- DECODE (R76) of the packet `p`. -/
  | cmdDecode (p : Bytes)
  /-- ENCODE (R79). -/
  | cmdEncode (pt : BitVec 7) (m : Bool) (ts ssrc : U32)
  /-- FEED (R81) of a packet that selects no row of the dispatch; its meaning is R81 in full for any packet. -/
  | cmdFeed (p : Bytes)
  /-- EMIT (R94) of the data `d`. -/
  | cmdEmit (ty : RtpType) (pre m sinkEn : Bool) (pt : BitVec 7) (ts ssrc : U32) (d : Bytes)
  /-- A word with `op = 5` (R61). -/
  | illegalOp5 (w : U32)
  /-- A word with `op = 6` (R61). -/
  | illegalOp6 (w : U32)
  /-- A word with `op = 7` (R61). -/
  | illegalOp7 (w : U32)
  /-- A word with `op` 0 to 4 and a reserved bit set (R61). -/
  | illegal (w : U32)
  /-- FEED of a packet whose NAL type is 0 (R91). -/
  | feedUnsupportedT0 (p : Bytes)
  /-- FEED of a packet whose NAL type is 1 (R85). -/
  | feedSingleT1 (p : Bytes)
  /-- FEED of a packet whose NAL type is 2 or 3 (R85). -/
  | feedSingleT2to3 (p : Bytes)
  /-- FEED of a packet whose NAL type is 4 to 7 (R85). -/
  | feedSingleT4to7 (p : Bytes)
  /-- FEED of a packet whose NAL type is 8 to 15 (R85). -/
  | feedSingleT8to15 (p : Bytes)
  /-- FEED of a packet whose NAL type is 16 to 23 (R85). -/
  | feedSingleT16to23 (p : Bytes)
  /-- FEED of a STAP-A packet, NAL type 24 (R90). -/
  | feedStapa (p : Bytes)
  /-- FEED of a packet whose NAL type is 25 (R91). -/
  | feedUnsupportedT25 (p : Bytes)
  /-- FEED of a packet whose NAL type is 26 or 27 (R91). -/
  | feedUnsupportedT26to27 (p : Bytes)
  /-- FEED of a FU-A packet with S = 0 and E = 0 (R88, R89). -/
  | feedFuaMiddle (p : Bytes)
  /-- FEED of a FU-A packet with S = 0 and E = 1 (R88, R89). -/
  | feedFuaEnd (p : Bytes)
  /-- FEED of a FU-A packet with S = 1 and E = 0 (R87 to R89). -/
  | feedFuaStart (p : Bytes)
  /-- FEED of a FU-A packet with S = 1 and E = 1 (R87 to R89). -/
  | feedFuaSingle (p : Bytes)
  /-- FEED of a packet whose NAL type is 29 (R91). -/
  | feedUnsupportedT29 (p : Bytes)
  /-- FEED of a packet whose NAL type is 30 or 31 (R91). -/
  | feedUnsupportedT30to31 (p : Bytes)
  deriving DecidableEq, Repr

end Sys2Proof
end

