-- ==== Sys2Proof/Machine/State.lean ====
section
/-! DEFINITION. The state of one instance, as plain data: the frame register set FRM and the sequence counter SEQ
(10_state.md R19 to R27), the response of the last command (R28 to R32), the validity of the frame view (R31), the
parameters (00_scope.md R8 to R10), and the commands the host has yet to issue (70_reset_and_hazards.md R125). -/

namespace Sys2Proof.Machine

/-- The record of DECODE (R29). -/
structure HeaderInfo where
  /-- version -/
  v : BitVec 2
  /-- padding flag -/
  pf : Bool
  /-- padding length, 0 when `pf` is clear -/
  pl : Byte
  /-- extension flag -/
  x : Bool
  /-- extension profile, 0 when `x` is clear -/
  xp : U16
  /-- extension length in 4-byte words, 0 when `x` is clear -/
  xl : U16
  /-- CSRC count -/
  cc : BitVec 4
  /-- marker -/
  m : Bool
  /-- payload type -/
  pt : BitVec 7
  /-- sequence number -/
  sn : U16
  /-- timestamp -/
  ts : U32
  /-- SSRC -/
  ssrc : U32
  /-- payload start offset -/
  ps : Nat
  /-- payload end offset -/
  pe : Nat
  /-- the bytes `P[ps:pe]` -/
  payload : Bytes
  deriving DecidableEq, Repr

/-- A part of a frame (R23): its NAL type, a copy of its bytes, and, where the case gives one, a copy of its window. -/
structure Part where
  ptype : BitVec 5
  data : Bytes
  rtp : Option Bytes
  deriving DecidableEq, Repr

/-- The frame register set FRM (R20 to R24). -/
structure FrameRegs where
  nalType : BitVec 5
  ssrc : U32
  ts : U32
  len : Nat
  parts : List Part
  deriving DecidableEq, Repr

/-- The statuses of 60_exceptions.md R99; their codes are `Status.code`. -/
inductive Status where
  | ok
  | complete
  | pending
  | malformedPacket
  | malformedHeader
  | malformedAggregation
  | unsupportedNaluType
  | frameOverflow
  | illegalCommand
  deriving DecidableEq, Repr

/-- One sink output of EMIT: the tag and the packet (R32, 42_packetizer.md R97). -/
structure SinkOutput where
  ty : RtpType
  bytes : Bytes
  deriving DecidableEq, Repr

/-- The result fields that come with a status (R28 to R32). -/
inductive Result where
  /-- no result field (RESET, every error, FEED's PENDING) -/
  | nothing
  /-- the record of a DECODE that returned OK (R29) -/
  | header (h : HeaderInfo)
  /-- the 12 header bytes of an ENCODE (R30) -/
  | encoded (h : Bytes)
  /-- the frame view of a FEED that returned COMPLETE (R31) -/
  | frame (view : FrameRegs)
  /-- the ordered sink outputs of an EMIT (R32) -/
  | outputs (outs : List SinkOutput)
  deriving DecidableEq, Repr

/-- What one command returns (R28). -/
structure Response where
  status : Status
  result : Result
  deriving DecidableEq, Repr

/-- The state of one instance. -/
structure State where
  /-- the parameters the host chose (R8 to R10); no command writes them -/
  cfg : Config
  /-- FRM, written by FEED and RESET only (R19, R36) -/
  frm : FrameRegs
  /-- SEQ, written by ENCODE, EMIT and RESET only (R27, R36) -/
  seq : U16
  /-- the response of the last command; none before the first completes (R28, R114) -/
  resp : Option Response
  /-- whether the frame view of the last COMPLETE is still valid: no FEED or RESET has started since (R31, R118) -/
  viewValid : Bool
  /-- the commands the host has yet to issue, in issue order (R51, R125) -/
  issued : List Command
  deriving DecidableEq, Repr

/-- The faults of a step. -/
inductive Fault where
  /-- Raised by EMIT's raw path when `MAX_PACKET_LEN <= HEADER_LEN`, a choice R8 forbids: `CHUNK` would not be positive and
  the loop of R96 would never end. Safe: no host that keeps R8 reaches it (log 9). -/
  | chunkNotPositive
  deriving DecidableEq, Repr

/-- The refusals of a step. -/
inductive Refusal where
  /-- Raised by an arm of `exec` whose instruction has no meaning yet; no arm is left so. Safe. -/
  | notModelled (mnemonic : String)
  /-- Raised by DECODE and FEED when the packet operand is longer than `PKT_MAX`: the spec refuses the command (20_memory.md
  R40, 60_exceptions.md R103). Safe (log 4). -/
  | packetOperandTooLong
  /-- Raised by EMIT when the data operand is longer than `EMIT_MAX`: the spec refuses the command (R40, R103). Safe
  (log 4). -/
  | dataOperandTooLong
  deriving DecidableEq, Repr

/-- FRM as power-on reset and RESET leave it (70_reset_and_hazards.md R114, R115; D6, log 11). -/
def FrameRegs.initial : FrameRegs where
  nalType := 0#5
  ssrc := 0#32
  ts := 0#32
  len := 0
  parts := []

/-- Power-on reset under the parameters `c` (R114). -/
def State.powerOn (c : Config) : State where
  cfg := c
  frm := FrameRegs.initial
  seq := c.seqInit
  resp := none
  viewValid := false
  issued := []

/-- The machine right after power-on reset, under the default parameters (R114; log 1). -/
def State.reset : State := State.powerOn Config.default

end Sys2Proof.Machine
end

