-- ==== Sys2Proof/Machine/Flags.lean ====
section
/-! DEFINITION. Flags, bit fields and codes. The block keeps no status flag (10_state.md R35): the flags here are read
from a byte per command (30_encoding.md R63, R69, R71). The codes are those of STATUS (60_exceptions.md R99) and of the
RTPType tag (30_encoding.md R60). -/

namespace Sys2Proof.Machine

/-- `STATUS` as its 4-bit code (R99). -/
def Status.code : Status → BitVec 4
  | .ok => 0#4
  | .complete => 1#4
  | .pending => 2#4
  | .malformedPacket => 3#4
  | .malformedHeader => 4#4
  | .malformedAggregation => 5#4
  | .unsupportedNaluType => 6#4
  | .frameOverflow => 7#4
  | .illegalCommand => 8#4

/-- Whether a status is an error (R99, column "kind"). -/
def Status.isError : Status → Bool
  | .ok => false
  | .complete => false
  | .pending => false
  | .malformedPacket => true
  | .malformedHeader => true
  | .malformedAggregation => true
  | .unsupportedNaluType => true
  | .frameOverflow => true
  | .illegalCommand => true

/-- The 2-bit code of a tag (R60). -/
def rtpTypeCode : RtpType → BitVec 2
  | .audio => 0#2
  | .video => 1#2
  | .audioControl => 2#2
  | .videoControl => 3#2

/-- The tag of a 2-bit code (R60). -/
def rtpTypeOf (b : BitVec 2) : RtpType :=
  if b = 0#2 then .audio else if b = 1#2 then .video else if b = 2#2 then .audioControl else .videoControl

/-- `V = P[0][7:6]` (R63). -/
def versionField (b0 : Byte) : BitVec 2 := b0.extractLsb' 6 2

/-- `Pf = P[0][5]` (R63). -/
def paddingFlag (b0 : Byte) : Bool := b0.getLsbD 5

/-- `X = P[0][4]` (R63). -/
def extensionFlag (b0 : Byte) : Bool := b0.getLsbD 4

/-- `CC = P[0][3:0]` (R63). -/
def csrcCount (b0 : Byte) : BitVec 4 := b0.extractLsb' 0 4

/-- `M = P[1][7]` (R63). -/
def markerFlag (b1 : Byte) : Bool := b1.getLsbD 7

/-- `PT = P[1][6:0]` (R63). -/
def payloadTypeField (b1 : Byte) : BitVec 7 := b1.extractLsb' 0 7

/-- The NAL type, the low 5 bits of a NAL header (R69); also `rt` of a FU header (R71). -/
def nalTypeField (b : Byte) : BitVec 5 := b.extractLsb' 0 5

/-- `S = fu[7]` (R71). -/
def fuStart (fu : Byte) : Bool := fu.getLsbD 7

/-- `E = fu[6]` (R71). -/
def fuEnd (fu : Byte) : Bool := fu.getLsbD 6

/-- The rebuilt NAL header `(ind & 0xE0) | (fu & 0x1F)` (R71, R87). -/
def rebuiltHeader (ind fu : Byte) : Byte := (ind &&& 0xE0#8) ||| (fu &&& 0x1F#8)

end Sys2Proof.Machine
end

