-- ==== Sys2Proof/Machine/Operands.lean ====
section
/-! DEFINITION. The operand forms: the reads of a byte operand and the writers of the wire (00_scope.md R12, R14), the
RTP header of a packet (30_encoding.md R63 to R67, 40_rtp_header.md R76), the header ENCODE writes (R68), and a part's
window (41_h264_deframer.md R82). The two computed parameters stand first (00_scope.md R8, R10). -/

namespace Sys2Proof

/-- `CHUNK = MAX_PACKET_LEN - HEADER_LEN` (R8). -/
def Config.chunk (c : Config) : Nat := c.maxPacketLen - headerLen

/-- Whether `n` parts are within `MAX_PARTS` (R10, R84). -/
def Config.partsFit (c : Config) (n : Nat) : Bool :=
  match c.maxParts with
  | none => true
  | some k => decide (n ≤ k)

end Sys2Proof

namespace Sys2Proof.Machine

/-- `P[i]` (R12). Every rule checks its bound first (20_memory.md R46), so the value off the end is read by none. -/
def byteAt (p : Bytes) (i : Nat) : Byte := p.getD i 0#8

/-- `P[a:b]`, bytes `a` to `b-1` (R12). -/
def slice (p : Bytes) (a b : Nat) : Bytes := (p.drop a).take (b - a)

/-- `be16(P, i)` (R14). -/
def be16 (p : Bytes) (i : Nat) : U16 :=
  BitVec.ofNat 16 ((byteAt p i).toNat * 2 ^ 8 + (byteAt p (i + 1)).toNat)

/-- `be32(P, i)` (R14). -/
def be32 (p : Bytes) (i : Nat) : U32 :=
  BitVec.ofNat 32 ((byteAt p i).toNat * 2 ^ 24 + (byteAt p (i + 1)).toNat * 2 ^ 16
    + (byteAt p (i + 2)).toNat * 2 ^ 8 + (byteAt p (i + 3)).toNat)

/-- `u16be(v)` (R14). -/
def u16be (v : U16) : Bytes := [v.extractLsb' 8 8, v.extractLsb' 0 8]

/-- `u32be(v)` (R14). -/
def u32be (v : U32) : Bytes :=
  [v.extractLsb' 24 8, v.extractLsb' 16 8, v.extractLsb' 8 8, v.extractLsb' 0 8]

/-! ### The RTP header of a packet (R63 to R67) -/

/-- Where the CSRC list ends: `12 + 4*CC` (R64). -/
def csrcEnd (p : Bytes) : Nat := headerLen + 4 * (csrcCount (byteAt p 0)).toNat

/-- `X` of a packet (R63). -/
def hasExtension (p : Bytes) : Bool := extensionFlag (byteAt p 0)

/-- `XP`, big-endian after the CSRC list; 0 when `X = 0` (R43, R76; D11, D12; log 13). -/
def extProfile (p : Bytes) : U16 := if hasExtension p then be16 p (csrcEnd p) else 0#16

/-- `XL`, big-endian after the profile; 0 when `X = 0` (R43, R76; D11, D12; log 13). -/
def extLength (p : Bytes) : U16 := if hasExtension p then be16 p (csrcEnd p + 2) else 0#16

/-- `hdrlen`, the payload start `ps` (R67). -/
def hdrLen (p : Bytes) : Nat :=
  if hasExtension p then csrcEnd p + 4 + 4 * (extLength p).toNat else csrcEnd p

/-- `PL`, the last byte of the packet when `Pf = 1`, else 0 (R66, R76). -/
def padLen (p : Bytes) : Byte :=
  if paddingFlag (byteAt p 0) then byteAt p (p.length - 1) else 0#8

/-- The five checks of R76, all of which must hold; their order is not observable (R77). The last one is
`ps <= |P| - PL`, a signed difference. -/
def headerFits (p : Bytes) : Bool :=
  decide (headerLen ≤ p.length) && decide (csrcEnd p ≤ p.length) &&
    (!hasExtension p || decide (csrcEnd p + 4 ≤ p.length)) && decide (hdrLen p ≤ p.length) &&
    decide (hdrLen p + (padLen p).toNat ≤ p.length)

/-- The record of R29, for a packet that passes the checks. -/
def headerInfo (p : Bytes) : HeaderInfo where
  v := versionField (byteAt p 0)
  pf := paddingFlag (byteAt p 0)
  pl := padLen p
  x := hasExtension p
  xp := extProfile p
  xl := extLength p
  cc := csrcCount (byteAt p 0)
  m := markerFlag (byteAt p 1)
  pt := payloadTypeField (byteAt p 1)
  sn := be16 p 2
  ts := be32 p 4
  ssrc := be32 p 8
  ps := hdrLen p
  pe := p.length - (padLen p).toNat
  payload := slice p (hdrLen p) (p.length - (padLen p).toNat)

/-- DECODE's parse (R76): the record, or nothing for `MalformedHeader`. -/
def parseHeader (p : Bytes) : Option HeaderInfo := if headerFits p then some (headerInfo p) else none

/-- The header of a packet that reaches FEED's dispatch: a valid header and a payload of at least one byte (R81; D14,
log 14). -/
def feedHeader (p : Bytes) : Option HeaderInfo :=
  match parseHeader p with
  | some h => if h.pe - h.ps < 1 then none else some h
  | none => none

/-- The window of a part whose data starts at offset `off` (R82; D16, log 16). -/
def window (p : Bytes) (h : HeaderInfo) (off : Nat) : Bytes := slice p (off - headerLen) h.pe

/-- The 12 header bytes ENCODE writes for the sequence number `sn` (R68). -/
def headerBytes (pt : BitVec 7) (m : Bool) (sn : U16) (ts ssrc : U32) : Bytes :=
  [0x80#8, BitVec.ofNat 8 (m.toNat * 0x80 + pt.toNat)] ++ u16be sn ++ u32be ts ++ u32be ssrc

end Sys2Proof.Machine
end

