-- ==== Sys2Proof/WellFormed.lean ====
section
/-! DEFINITION. Well-formed instructions: the terms that some command decodes to. A row of FEED's dispatch carries a
packet of its own NAL types (the ranges of 30_encoding.md R74, the S and E of R75), FEED itself one that selects no row,
and an illegal row a word of its own kind (R61). -/

namespace Sys2Proof

open Sys2Proof.Machine

/-- The packet reaches the dispatch with a NAL type from `lo` to `hi` (R81, R74). -/
def nalTypeIn (lo hi : Nat) (p : Bytes) : Bool :=
  match feedHeader p with
  | none => false
  | some h =>
    decide (lo ≤ (nalTypeField (byteAt p h.ps)).toNat) && decide ((nalTypeField (byteAt p h.ps)).toNat ≤ hi)

/-- The packet reaches the dispatch as a FU-A with its FU header present and these `S` and `E` (R86, R75). -/
def fuaForm (s e : Bool) (p : Bytes) : Bool :=
  match feedHeader p with
  | none => false
  | some h =>
    decide ((nalTypeField (byteAt p h.ps)).toNat = 28) && decide (2 ≤ h.pe - h.ps) &&
      (fuStart (byteAt p (h.ps + 1)) == s) && (fuEnd (byteAt p (h.ps + 1)) == e)

/-- The packet selects no row of the dispatch: it fails before it (R81), or is a FU-A without its FU header (R86). -/
def selectsNoRow (p : Bytes) : Bool :=
  match feedHeader p with
  | none => true
  | some h => decide ((nalTypeField (byteAt p h.ps)).toNat = 28) && decide (h.pe - h.ps < 2)

/-- Whether some command decodes to the instruction. -/
def Instr.wellFormed : Instr → Bool
  | .cmdReset _ => true
  | .cmdDecode _ => true
  | .cmdEncode _ _ _ _ => true
  | .cmdFeed p => selectsNoRow p
  | .cmdEmit _ _ _ _ _ _ _ _ => true
  | .illegalOp5 w => decide (w.toNat % 8 = 5)
  | .illegalOp6 w => decide (w.toNat % 8 = 6)
  | .illegalOp7 w => decide (w.toNat % 8 = 7)
  | .illegal w => decide (w.toNat % 8 < 5) && decide (2 ^ 15 ≤ w.toNat)
  | .feedUnsupportedT0 p => nalTypeIn 0 0 p
  | .feedSingleT1 p => nalTypeIn 1 1 p
  | .feedSingleT2to3 p => nalTypeIn 2 3 p
  | .feedSingleT4to7 p => nalTypeIn 4 7 p
  | .feedSingleT8to15 p => nalTypeIn 8 15 p
  | .feedSingleT16to23 p => nalTypeIn 16 23 p
  | .feedStapa p => nalTypeIn 24 24 p
  | .feedUnsupportedT25 p => nalTypeIn 25 25 p
  | .feedUnsupportedT26to27 p => nalTypeIn 26 27 p
  | .feedFuaMiddle p => fuaForm false false p
  | .feedFuaEnd p => fuaForm false true p
  | .feedFuaStart p => fuaForm true false p
  | .feedFuaSingle p => fuaForm true true p
  | .feedUnsupportedT29 p => nalTypeIn 29 29 p
  | .feedUnsupportedT30to31 p => nalTypeIn 30 31 p

end Sys2Proof
end

