-- ==== Sys2Proof/Decode.lean ====
section
/-! DEFINITION. Decoding and encoding of commands (30_encoding.md R57 to R61, R74, R75). The rows are the masks and
patterns of spec/opcode_table.json, in file order. Decoding is total: the spec answers every command word (R61), so no
command is rejected; an illegal word is an instruction of its own. The encoder, written from R62, follows. -/

namespace Sys2Proof

open Sys2Proof.Machine

/-! ### The fields of the command word (R57) -/

/-- `op = CMD[2:0]`. -/
def Command.op (c : Command) : BitVec 3 := c.cmd.extractLsb' 0 3

/-- `pre = CMD[3]`. -/
def Command.pre (c : Command) : Bool := c.cmd.getLsbD 3

/-- `m = CMD[4]`. -/
def Command.m (c : Command) : Bool := c.cmd.getLsbD 4

/-- `sink_en = CMD[5]`. -/
def Command.sinkEn (c : Command) : Bool := c.cmd.getLsbD 5

/-- `type = CMD[7:6]` (R60). -/
def Command.ty (c : Command) : RtpType := rtpTypeOf (c.cmd.extractLsb' 6 2)

/-- `pt = CMD[14:8]`. -/
def Command.pt (c : Command) : BitVec 7 := c.cmd.extractLsb' 8 7

/-- The reserved bits `CMD[31:15]`. -/
def Command.reserved (c : Command) : BitVec 17 := c.cmd.extractLsb' 15 17

/-- RESET's operand `seq = ARG0[15:0]` (R115). -/
def Command.seq (c : Command) : U16 := c.arg0.extractLsb' 0 16

/-! ### The CMD32 rows (R58, R61) -/

/-- The forms of the CMD32 rows. -/
inductive CmdForm where
  | reset | decode | encode | feed | emit | op5 | op6 | op7 | other
  deriving DecidableEq, Repr

/-- A CMD32 row: it matches a word `w` when `w & mask = pat`. -/
structure CmdRow where
  mask : U32
  pat : U32
  form : CmdForm
  deriving DecidableEq, Repr

/-- The CMD32 rows of spec/opcode_table.json, in file order. -/
def cmdRows : List CmdRow :=
  [⟨0xFFFF8007#32, 0x00000000#32, .reset⟩,
   ⟨0xFFFF8007#32, 0x00000001#32, .decode⟩,
   ⟨0xFFFF8007#32, 0x00000002#32, .encode⟩,
   ⟨0xFFFF8007#32, 0x00000003#32, .feed⟩,
   ⟨0xFFFF8007#32, 0x00000004#32, .emit⟩,
   ⟨0x00000007#32, 0x00000005#32, .op5⟩,
   ⟨0x00000007#32, 0x00000006#32, .op6⟩,
   ⟨0x00000007#32, 0x00000007#32, .op7⟩,
   ⟨0x00000000#32, 0x00000000#32, .other⟩]

/-- The form of the first row that matches (R61); the last row matches every word. -/
def cmdForm (w : U32) : CmdForm :=
  match cmdRows.find? (fun r => w &&& r.mask == r.pat) with
  | some r => r.form
  | none => .other

/-! ### The rows of FEED's dispatch (R74, R75) -/

/-- The forms of the NALHDR8 rows, and the FU-A case, which the FUA16 rows divide. -/
inductive NalForm where
  | unsupportedT0 | singleT1 | singleT2to3 | singleT4to7 | singleT8to15 | singleT16to23 | stapa
  | unsupportedT25 | unsupportedT26to27 | fua | unsupportedT29 | unsupportedT30to31
  deriving DecidableEq, Repr

/-- A row of R74: it matches a byte `b` when `b & mask = pat`. -/
structure NalRow where
  mask : Byte
  pat : Byte
  form : NalForm
  deriving DecidableEq, Repr

/-- The rows of R74, in its order. -/
def nalRows : List NalRow :=
  [⟨0x1F#8, 0x00#8, .unsupportedT0⟩,
   ⟨0x1F#8, 0x01#8, .singleT1⟩,
   ⟨0x1E#8, 0x02#8, .singleT2to3⟩,
   ⟨0x1C#8, 0x04#8, .singleT4to7⟩,
   ⟨0x18#8, 0x08#8, .singleT8to15⟩,
   ⟨0x18#8, 0x10#8, .singleT16to23⟩,
   ⟨0x1F#8, 0x18#8, .stapa⟩,
   ⟨0x1F#8, 0x19#8, .unsupportedT25⟩,
   ⟨0x1E#8, 0x1A#8, .unsupportedT26to27⟩,
   ⟨0x1F#8, 0x1C#8, .fua⟩,
   ⟨0x1F#8, 0x1D#8, .unsupportedT29⟩,
   ⟨0x1E#8, 0x1E#8, .unsupportedT30to31⟩]

/-- The row the byte `P[ps]` selects; every byte matches exactly one (R74). -/
def nalForm (b : Byte) : Option NalForm := (nalRows.find? (fun r => b &&& r.mask == r.pat)).map NalRow.form

/-- The forms of the FUA16 rows. -/
inductive FuaForm where
  | middle | finish | start | single
  deriving DecidableEq, Repr

/-- A row of R75: it matches the word `w = P[ps]*256 + P[ps+1]` when `w & mask = pat`. -/
structure FuaRow where
  mask : U16
  pat : U16
  form : FuaForm
  deriving DecidableEq, Repr

/-- The FUA16 rows of spec/opcode_table.json. -/
def fuaRows : List FuaRow :=
  [⟨0x1FC0#16, 0x1C00#16, .middle⟩,
   ⟨0x1FC0#16, 0x1C40#16, .finish⟩,
   ⟨0x1FC0#16, 0x1C80#16, .start⟩,
   ⟨0x1FC0#16, 0x1CC0#16, .single⟩]

/-- The row the FU-A word selects (R75). -/
def fuaRowOf (w : U16) : Option FuaForm := (fuaRows.find? (fun r => w &&& r.mask == r.pat)).map FuaRow.form

/-- The instruction of a FU-A packet whose FU header is present. -/
def fuaInstr (w : U16) (p : Bytes) : Instr :=
  match fuaRowOf w with
  | some .middle => .feedFuaMiddle p
  | some .finish => .feedFuaEnd p
  | some .start => .feedFuaStart p
  | some .single => .feedFuaSingle p
  | none => .cmdFeed p

/-- The instruction a FEED of the packet `p` is: the row its payload selects, or FEED itself (R74, R75, R81). -/
def feedInstr (p : Bytes) : Instr :=
  match feedHeader p with
  | none => .cmdFeed p
  | some h =>
    match nalForm (byteAt p h.ps) with
    | some .unsupportedT0 => .feedUnsupportedT0 p
    | some .singleT1 => .feedSingleT1 p
    | some .singleT2to3 => .feedSingleT2to3 p
    | some .singleT4to7 => .feedSingleT4to7 p
    | some .singleT8to15 => .feedSingleT8to15 p
    | some .singleT16to23 => .feedSingleT16to23 p
    | some .stapa => .feedStapa p
    | some .unsupportedT25 => .feedUnsupportedT25 p
    | some .unsupportedT26to27 => .feedUnsupportedT26to27 p
    | some .fua => if h.pe - h.ps < 2 then .cmdFeed p else fuaInstr (be16 p h.ps) p
    | some .unsupportedT29 => .feedUnsupportedT29 p
    | some .unsupportedT30to31 => .feedUnsupportedT30to31 p
    | none => .cmdFeed p

/-- Decode a command (R57, R58, R61). -/
def decode (c : Command) : Instr :=
  match cmdForm c.cmd with
  | .reset => .cmdReset c.seq
  | .decode => .cmdDecode c.operand
  | .encode => .cmdEncode c.pt c.m c.arg0 c.arg1
  | .feed => feedInstr c.operand
  | .emit => .cmdEmit c.ty c.pre c.m c.sinkEn c.pt c.arg0 c.arg1 c.operand
  | .op5 => .illegalOp5 c.cmd
  | .op6 => .illegalOp6 c.cmd
  | .op7 => .illegalOp7 c.cmd
  | .other => .illegal c.cmd

/-! ### The encoder (R62) -/

/-- `CMD = op + 8*pre + 16*m + 32*sink_en + 64*type + 256*pt` (R62). -/
def assemble (op : Nat) (pre m sinkEn : Bool) (ty : BitVec 2) (pt : BitVec 7) : U32 :=
  BitVec.ofNat 32 (op + 8 * pre.toNat + 16 * m.toNat + 32 * sinkEn.toNat + 64 * ty.toNat + 256 * pt.toNat)

/-- A FEED command of the packet `p` (R58, R62). -/
def feedCommand (p : Bytes) : Command := ⟨assemble 3 false false false 0#2 0#7, 0#32, 0#32, p⟩

/-- A bare command word. -/
def wordCommand (w : U32) : Command := ⟨w, 0#32, 0#32, []⟩

/-- The command of an instruction, unused fields 0 (R62). -/
def encode : Instr → Command
  | .cmdReset seq => ⟨assemble 0 false false false 0#2 0#7, seq.setWidth 32, 0#32, []⟩
  | .cmdDecode p => ⟨assemble 1 false false false 0#2 0#7, 0#32, 0#32, p⟩
  | .cmdEncode pt m ts ssrc => ⟨assemble 2 false m false 0#2 pt, ts, ssrc, []⟩
  | .cmdFeed p => feedCommand p
  | .cmdEmit ty pre m sinkEn pt ts ssrc d => ⟨assemble 4 pre m sinkEn (rtpTypeCode ty) pt, ts, ssrc, d⟩
  | .illegalOp5 w => wordCommand w
  | .illegalOp6 w => wordCommand w
  | .illegalOp7 w => wordCommand w
  | .illegal w => wordCommand w
  | .feedUnsupportedT0 p => feedCommand p
  | .feedSingleT1 p => feedCommand p
  | .feedSingleT2to3 p => feedCommand p
  | .feedSingleT4to7 p => feedCommand p
  | .feedSingleT8to15 p => feedCommand p
  | .feedSingleT16to23 p => feedCommand p
  | .feedStapa p => feedCommand p
  | .feedUnsupportedT25 p => feedCommand p
  | .feedUnsupportedT26to27 p => feedCommand p
  | .feedFuaMiddle p => feedCommand p
  | .feedFuaEnd p => feedCommand p
  | .feedFuaStart p => feedCommand p
  | .feedFuaSingle p => feedCommand p
  | .feedUnsupportedT29 p => feedCommand p
  | .feedUnsupportedT30to31 p => feedCommand p

/-! ### The opcode table's words -/

/-- The command that a word of the opcode table stands for. The table has words of three formats (R61): a CMD32 word is
the command word, with ARG0 and ARG1 the words after it; a NALHDR8 byte and a FUA16 word (its high byte `P[ps]`, R75) are
the payload of a FEED whose packet has a 12-byte header of zeros. A word of at most 8 bits is a NALHDR8 byte, but for 5,
6 and 7, which are exactly the fixed bits of the ILLEGAL.OP rows; one of at most 16 bits is a FUA16 word. DESIGN CHOICE,
safe: log 10. -/
def tableCommand (nbits w : Nat) : Command :=
  if nbits ≤ 8 then
    if w = 5 ∨ w = 6 ∨ w = 7 then wordCommand (BitVec.ofNat 32 w)
    else feedCommand (List.replicate headerLen 0#8 ++ [BitVec.ofNat 8 w])
  else if nbits ≤ 16 then
    feedCommand (List.replicate headerLen 0#8 ++ [BitVec.ofNat 8 (w / 2 ^ 8), BitVec.ofNat 8 w])
  else ⟨BitVec.ofNat 32 w, BitVec.ofNat 32 (w / 2 ^ 32), BitVec.ofNat 32 (w / 2 ^ 64), []⟩

/-- The instruction the decoder reads from a word of the opcode table. -/
def decodeTableWord (nbits w : Nat) : Option Instr := some (decode (tableCommand nbits w))

end Sys2Proof
end

