-- ==== Sys2Proof/Machine/Ops.lean ====
section
/-! DEFINITION. The named operations over the state: reading the byte spaces, ending a command with a status
(60_exceptions.md R99 to R106), the frame reset and append (41_h264_deframer.md R83, R84), FEED's entry (R81), and taking
the host's next command (20_memory.md R51). -/

namespace Sys2Proof.Machine

/-! ### The byte spaces (20_memory.md R38) -/

/-- The frame data buffer: the parts' bytes in order (R23, R38). -/
def FrameRegs.buffer (f : FrameRegs) : Bytes := f.parts.flatMap Part.data

/-- The byte at offset `a` of the frame data buffer; none past the bytes in use (R38). -/
def FrameRegs.readByte (f : FrameRegs) (a : Nat) : Option Byte := f.buffer[a]?

/-- The byte at offset `a` of the window of part `k` (R38). -/
def FrameRegs.readWindow (f : FrameRegs) (k a : Nat) : Option Byte :=
  (f.parts[k]?).bind (fun part => part.rtp.bind (fun w => w[a]?))

/-- The number of bytes in a list of parts (R24). -/
def dataLen (parts : List Part) : Nat := (parts.map (fun part => part.data.length)).sum

/-- A part's window is within `PKT_MAX`, and after its 12 bytes of header room it is the part's data (R38, R82). -/
def windowFits (c : Config) (part : Part) : Bool :=
  match part.rtp with
  | none => true
  | some w => decide (headerLen ≤ w.length) && decide (w.length ≤ c.pktMax) && (w.drop headerLen == part.data)

/-- The canonical form of the block's memory (R24, R38, R82): `len` counts the parts' bytes, the buffer and the part list
are within their bounds, and every window fits its part. -/
def Memory.wf (c : Config) (f : FrameRegs) : Bool :=
  decide (f.len = dataLen f.parts) && decide (f.len ≤ c.frameBufMax) && c.partsFit f.parts.length &&
    f.parts.all (windowFits c)

/-- The frame view the host can read (R31, R118): FRM itself, while it is valid. -/
def State.view (s : State) : Option FrameRegs := if s.viewValid then some s.frm else none

/-! ### Updates of the state -/

/-- Write FRM. -/
def State.withFrm (f : FrameRegs) (s : State) : State := { s with frm := f }

/-- Write SEQ. -/
def State.withSeq (n : U16) (s : State) : State := { s with seq := n }

/-- Set whether the frame view is valid (R31). -/
def State.withView (b : Bool) (s : State) : State := { s with viewValid := b }

/-- Put the host's commands yet to issue. -/
def State.withIssued (cs : List Command) (s : State) : State := { s with issued := cs }

/-- End a command: its status and result become readable (R28, R99). The block has no traps (R105): returning a status is
all an error does, and nothing returns from it (R106). -/
def State.finish (st : Status) (res : Result) (s : State) : State := { s with resp := some ⟨st, res⟩ }

/-! ### The host's commands (R51, R113) -/

/-- The command the host issues next and the state with that command taken; none when the host has issued all (R125). -/
def State.takeCommand (s : State) : Option (Command × State) :=
  match s.issued with
  | [] => none
  | c :: rest => some (c, s.withIssued rest)

/-! ### The frame operations (R83, R84) -/

/-- `FrmReset(ssrc, ts)` (R83). -/
def frmReset (ssrc ts : U32) : FrameRegs where
  nalType := 0#5
  ssrc := ssrc
  ts := ts
  len := 0
  parts := []

/-- Clear the parts and the length, the other fields kept (R84, R90). -/
def FrameRegs.discard (f : FrameRegs) : FrameRegs := { f with len := 0, parts := [] }

/-- Write `FRM.nal_type`. -/
def FrameRegs.withNalType (t : BitVec 5) (f : FrameRegs) : FrameRegs := { f with nalType := t }

/-- Append one part and count its bytes (R84). -/
def FrameRegs.push (t : BitVec 5) (data : Bytes) (rtp : Option Bytes) (f : FrameRegs) : FrameRegs :=
  { f with len := f.len + data.length, parts := f.parts ++ [⟨t, data, rtp⟩] }

/-- Whether one more part of these bytes is within `FRAME_BUF_MAX` and `MAX_PARTS` (R84). -/
def FrameRegs.hasRoom (c : Config) (data : Bytes) (f : FrameRegs) : Bool :=
  decide (f.len + data.length ≤ c.frameBufMax) && c.partsFit (f.parts.length + 1)

/-- `FrmAppend(t, data, rtp)` and what follows it, `next`; on overflow the frame is discarded and the command ends with
`FrameOverflow` (R84; D21, log 20). -/
def frmAppend (c : Config) (t : BitVec 5) (data : Bytes) (rtp : Option Bytes) (f : FrameRegs)
    (next : FrameRegs → Status × FrameRegs) : Status × FrameRegs :=
  if f.hasRoom c data then next (f.push t data rtp) else (.frameOverflow, f.discard)

/-! ### FEED's entry and end (R81, R31) -/

/-- The steps of R81 before the dispatch; `body` is the case. FRM is unchanged when one of them fails. -/
def feedEntry (p : Bytes) (f : FrameRegs) (body : HeaderInfo → Status × FrameRegs) : Status × FrameRegs :=
  if p.length < headerLen then (.malformedPacket, f)
  else
    match parseHeader p with
    | none => (.malformedHeader, f)
    | some h => if h.pe - h.ps < 1 then (.malformedPacket, f) else body h

/-- What FEED returns with a status: the frame view with COMPLETE, nothing else (R31). -/
def feedResult (st : Status) (f : FrameRegs) : Result :=
  match st with
  | .complete => .frame f
  | _ => .nothing

/-- End a FEED: FRM written, the view valid exactly after COMPLETE, status and result returned (R31). -/
def State.finishFeed (r : Status × FrameRegs) (s : State) : State :=
  ((s.withFrm r.2).withView (r.1 == .complete)).finish r.1 (feedResult r.1 r.2)

/-- A FEED of the packet `p` whose case is `body`: refused when `p` is longer than `PKT_MAX` (R40, R103). -/
def feedCommandWith (p : Bytes) (s : State) (body : HeaderInfo → FrameRegs → Status × FrameRegs) :
    Host.Outcome State Fault Refusal :=
  if s.cfg.pktMax < p.length then .refused .packetOperandTooLong
  else .next (s.finishFeed (feedEntry p s.frm (fun h => body h s.frm)))

/-- An illegal command word: `IllegalCommand`, nothing else changed (30_encoding.md R61, R100). -/
def illegalCommand (s : State) : Host.Outcome State Fault Refusal :=
  .next (s.finish .illegalCommand .nothing)

end Sys2Proof.Machine
end

