-- ==== Sys2Proof/Machine/Codec.lean ====
section
/-! DEFINITION. The control and header codec commands: RESET (70_reset_and_hazards.md R115), DECODE and ENCODE
(40_rtp_header.md R76, R79), and the illegal command words (30_encoding.md R61). -/

namespace Sys2Proof.Machine

/-- The header encode `ENC` of R79, shared by ENCODE and EMIT (R80): the header for the SEQ held now, and SEQ advanced by
1 mod 65536. Writing the value held before the increment is D8: log 12. -/
def encodeHeader (pt : BitVec 7) (m : Bool) (ts ssrc : U32) (seq : U16) : Bytes × U16 :=
  (headerBytes pt m seq ts ssrc, seq + 1#16)

/-- RESET (R115). -/
def execReset (seq : U16) (s : State) : Host.Outcome State Fault Refusal :=
  .next ((((s.withFrm FrameRegs.initial).withSeq seq).withView false).finish .ok .nothing)

/-- DECODE (R76): the record or `MalformedHeader`; no state written. Refused when the packet is longer than `PKT_MAX`
(R40). -/
def execDecode (p : Bytes) (s : State) : Host.Outcome State Fault Refusal :=
  if s.cfg.pktMax < p.length then .refused .packetOperandTooLong
  else
    match parseHeader p with
    | none => .next (s.finish .malformedHeader .nothing)
    | some h => .next (s.finish .ok (.header h))

/-- ENCODE (R79). -/
def execEncode (pt : BitVec 7) (m : Bool) (ts ssrc : U32) (s : State) : Host.Outcome State Fault Refusal :=
  .next ((s.withSeq (encodeHeader pt m ts ssrc s.seq).2).finish .ok (.encoded (encodeHeader pt m ts ssrc s.seq).1))

/-- A word with `op = 5` (R61). -/
def execIllegalOp5 (_w : U32) (s : State) : Host.Outcome State Fault Refusal := illegalCommand s

/-- A word with `op = 6` (R61). -/
def execIllegalOp6 (_w : U32) (s : State) : Host.Outcome State Fault Refusal := illegalCommand s

/-- A word with `op = 7` (R61). -/
def execIllegalOp7 (_w : U32) (s : State) : Host.Outcome State Fault Refusal := illegalCommand s

/-- A word with a reserved bit set and `op` 0 to 4 (R61). -/
def execIllegal (_w : U32) (s : State) : Host.Outcome State Fault Refusal := illegalCommand s

end Sys2Proof.Machine
end

