-- ==== Sys2Proof/Machine/Deframer.lean ====
section
/-! DEFINITION. The deframer command FEED (41_h264_deframer.md R81 to R93): the cases, FEED itself with its whole dispatch,
and the rows of the dispatch. -/

namespace Sys2Proof.Machine

/-! ### The cases -/

/-- FEED.SINGLE (R85): the whole payload is one part and the frame is complete. -/
def feedSingle (c : Config) (p : Bytes) (h : HeaderInfo) (_f : FrameRegs) : Status × FrameRegs :=
  frmAppend c (nalTypeField (byteAt p h.ps)) (slice p h.ps h.pe) (some (window p h h.ps))
    ((frmReset h.ssrc h.ts).withNalType (nalTypeField (byteAt p h.ps))) (fun f => (.complete, f))

/-- FEED.FUA, header step (R86): a payload without its FU header is `MalformedPacket` (D15, log 15); else `body` has the
FU indicator and the FU header. -/
def fuaHeader (p : Bytes) (h : HeaderInfo) (f : FrameRegs) (body : Byte → Byte → Status × FrameRegs) : Status × FrameRegs :=
  if h.pe - h.ps < 2 then (.malformedPacket, f) else body (byteAt p h.ps) (byteAt p (h.ps + 1))

/-- FEED.FUA, start step for `S = 1` (R87): a new frame, and the rebuilt NAL header as its first part. -/
def fuaStartStep (c : Config) (h : HeaderInfo) (ind fu : Byte) (next : FrameRegs → Status × FrameRegs) : Status × FrameRegs :=
  frmAppend c (nalTypeField fu) [rebuiltHeader ind fu] none
    ((frmReset h.ssrc h.ts).withNalType (nalTypeField fu)) next

/-- FEED.FUA, fragment step (R88), then the end step's status `st` (R89). -/
def fuaFragment (c : Config) (p : Bytes) (h : HeaderInfo) (fu : Byte) (st : Status) (f : FrameRegs) : Status × FrameRegs :=
  frmAppend c (nalTypeField fu) (slice p (h.ps + 2) h.pe) (some (window p h (h.ps + 2))) f (fun f' => (st, f'))

/-- FEED.FUA (R86 to R89), form selected by `S` and `E`. -/
def feedFua (c : Config) (p : Bytes) (h : HeaderInfo) (f : FrameRegs) : Status × FrameRegs :=
  fuaHeader p h f (fun ind fu =>
    if fuStart fu then
      fuaStartStep c h ind fu (fuaFragment c p h fu (if fuEnd fu then .complete else .pending))
    else fuaFragment c p h fu (if fuEnd fu then .complete else .pending) f)

/-- `ptype` of a STAP-A unit: its own NAL type, 0 for an empty unit (R90; D17, log 17). -/
def unitType (unit : Bytes) : BitVec 5 :=
  match unit with
  | [] => 0#5
  | b :: _ => nalTypeField b

/-- The loop of FEED.STAPA (R90) over the bytes `P[i:pe]` still to read, for at most `fuel` passes; the payload's length
is enough fuel, since every pass takes at least 2 bytes. -/
def stapaLoop (c : Config) : (fuel : Nat) → (rest : Bytes) → FrameRegs → Status × FrameRegs
  | 0, _, f => (.complete, f)
  | fuel + 1, rest, f =>
    if rest.length < 2 then (.complete, f)
    else if rest.length - 2 < (be16 rest 0).toNat then (.malformedAggregation, f.discard)
    else
      frmAppend c (unitType (slice rest 2 (2 + (be16 rest 0).toNat))) (slice rest 2 (2 + (be16 rest 0).toNat)) none f
        (stapaLoop c fuel (rest.drop (2 + (be16 rest 0).toNat)))

/-- FEED.STAPA (R90): the first unit starts after the STAP-A NAL header (R72, log 24); `nal_type` is 24 (D18, log 18). -/
def feedStapa (c : Config) (p : Bytes) (h : HeaderInfo) (_f : FrameRegs) : Status × FrameRegs :=
  stapaLoop c (h.pe - h.ps) (slice p (h.ps + 1) h.pe) ((frmReset h.ssrc h.ts).withNalType 24#5)

/-- FEED.UNSUPPORTED (R91): FRM untouched. -/
def feedUnsupported (_p : Bytes) (_h : HeaderInfo) (f : FrameRegs) : Status × FrameRegs := (.unsupportedNaluType, f)

/-- The dispatch of R81 on `t = P[ps][4:0]`. -/
def feedDispatch (c : Config) (p : Bytes) (h : HeaderInfo) (f : FrameRegs) : Status × FrameRegs :=
  let t := (nalTypeField (byteAt p h.ps)).toNat
  if 1 ≤ t ∧ t ≤ 23 then feedSingle c p h f
  else if t = 28 then feedFua c p h f
  else if t = 24 then feedStapa c p h f
  else feedUnsupported p h f

/-! ### The instructions -/

/-- FEED (R81), for any packet. -/
def execFeed (p : Bytes) (s : State) : Host.Outcome State Fault Refusal :=
  feedCommandWith p s (feedDispatch s.cfg p)

/-- FEED.UNSUPPORTED.T0 (R91). -/
def execFeedUnsupportedT0 (p : Bytes) (s : State) : Host.Outcome State Fault Refusal :=
  feedCommandWith p s (feedUnsupported p)

/-- FEED.SINGLE.T1 (R85). -/
def execFeedSingleT1 (p : Bytes) (s : State) : Host.Outcome State Fault Refusal :=
  feedCommandWith p s (feedSingle s.cfg p)

/-- FEED.SINGLE.T2_3 (R85). -/
def execFeedSingleT2to3 (p : Bytes) (s : State) : Host.Outcome State Fault Refusal :=
  feedCommandWith p s (feedSingle s.cfg p)

/-- FEED.SINGLE.T4_7 (R85). -/
def execFeedSingleT4to7 (p : Bytes) (s : State) : Host.Outcome State Fault Refusal :=
  feedCommandWith p s (feedSingle s.cfg p)

/-- FEED.SINGLE.T8_15 (R85). -/
def execFeedSingleT8to15 (p : Bytes) (s : State) : Host.Outcome State Fault Refusal :=
  feedCommandWith p s (feedSingle s.cfg p)

/-- FEED.SINGLE.T16_23 (R85). -/
def execFeedSingleT16to23 (p : Bytes) (s : State) : Host.Outcome State Fault Refusal :=
  feedCommandWith p s (feedSingle s.cfg p)

/-- FEED.STAPA (R90). -/
def execFeedStapa (p : Bytes) (s : State) : Host.Outcome State Fault Refusal :=
  feedCommandWith p s (feedStapa s.cfg p)

/-- FEED.UNSUPPORTED.T25 (R91). -/
def execFeedUnsupportedT25 (p : Bytes) (s : State) : Host.Outcome State Fault Refusal :=
  feedCommandWith p s (feedUnsupported p)

/-- FEED.UNSUPPORTED.T26_27 (R91). -/
def execFeedUnsupportedT26to27 (p : Bytes) (s : State) : Host.Outcome State Fault Refusal :=
  feedCommandWith p s (feedUnsupported p)

/-- FEED.FUA.MIDDLE (R86, R88, R89): `S = 0`, `E = 0`. -/
def execFeedFuaMiddle (p : Bytes) (s : State) : Host.Outcome State Fault Refusal :=
  feedCommandWith p s (fun h f => fuaHeader p h f (fun _ fu => fuaFragment s.cfg p h fu .pending f))

/-- FEED.FUA.END (R86, R88, R89): `S = 0`, `E = 1`. -/
def execFeedFuaEnd (p : Bytes) (s : State) : Host.Outcome State Fault Refusal :=
  feedCommandWith p s (fun h f => fuaHeader p h f (fun _ fu => fuaFragment s.cfg p h fu .complete f))

/-- FEED.FUA.START (R86 to R89): `S = 1`, `E = 0`. -/
def execFeedFuaStart (p : Bytes) (s : State) : Host.Outcome State Fault Refusal :=
  feedCommandWith p s (fun h f => fuaHeader p h f (fun ind fu =>
    fuaStartStep s.cfg h ind fu (fuaFragment s.cfg p h fu .pending)))

/-- FEED.FUA.SINGLE (R75, R86 to R89): `S = 1`, `E = 1`. -/
def execFeedFuaSingle (p : Bytes) (s : State) : Host.Outcome State Fault Refusal :=
  feedCommandWith p s (fun h f => fuaHeader p h f (fun ind fu =>
    fuaStartStep s.cfg h ind fu (fuaFragment s.cfg p h fu .complete)))

/-- FEED.UNSUPPORTED.T29 (R91). -/
def execFeedUnsupportedT29 (p : Bytes) (s : State) : Host.Outcome State Fault Refusal :=
  feedCommandWith p s (feedUnsupported p)

/-- FEED.UNSUPPORTED.T30_31 (R91). -/
def execFeedUnsupportedT30to31 (p : Bytes) (s : State) : Host.Outcome State Fault Refusal :=
  feedCommandWith p s (feedUnsupported p)

end Sys2Proof.Machine
end

