-- ==== Sys2Proof/Machine/Packetizer.lean ====
section
/-! DEFINITION. The packetizer command EMIT (42_packetizer.md R94 to R98). -/

namespace Sys2Proof.Machine

/-- The split of EMIT's raw path (R96): the payload of each packet with its marker, 0 on all but the last. At most `fuel`
cuts; the data's length is enough fuel when `chunk` is positive. -/
def rawSplit (chunk : Nat) : (fuel : Nat) → Bytes → List (Bool × Bytes)
  | 0, d => [(true, d)]
  | fuel + 1, d =>
    if chunk < d.length then (false, d.take chunk) :: rawSplit chunk fuel (d.drop chunk) else [(true, d)]

/-- Head each payload with the next header and hand it to the sink, in order (R96, R97): the outputs, and SEQ advanced
once per packet (R80). -/
def sinkAll (ty : RtpType) (pt : BitVec 7) (ts ssrc : U32) : List (Bool × Bytes) → U16 → List SinkOutput × U16
  | [], seq => ([], seq)
  | (m, payload) :: rest, seq =>
    (⟨ty, (encodeHeader pt m ts ssrc seq).1 ++ payload⟩ :: (sinkAll ty pt ts ssrc rest (encodeHeader pt m ts ssrc seq).2).1,
      (sinkAll ty pt ts ssrc rest (encodeHeader pt m ts ssrc seq).2).2)

/-- End an EMIT: SEQ written, OK and the outputs returned (R32, R94). -/
def State.finishEmit (r : List SinkOutput × U16) (s : State) : State :=
  (s.withSeq r.2).finish .ok (.outputs r.1)

/-- EMIT.PRE (R95): nothing for data under 12 bytes (D25, log 21), else one packet with all 12 header bytes replaced
(D26, log 22). -/
def emitPre (ty : RtpType) (m : Bool) (pt : BitVec 7) (ts ssrc : U32) (d : Bytes) (seq : U16) :
    List SinkOutput × U16 :=
  if d.length < headerLen then ([], seq) else sinkAll ty pt ts ssrc [(m, d.drop headerLen)] seq

/-- EMIT.RAW (R96). -/
def emitRaw (chunk : Nat) (ty : RtpType) (pt : BitVec 7) (ts ssrc : U32) (d : Bytes) (seq : U16) :
    List SinkOutput × U16 :=
  sinkAll ty pt ts ssrc (rawSplit chunk d.length d) seq

/-- EMIT (R94). Refused when the data is longer than `EMIT_MAX` (R40). A chunk that is not positive, which R8 forbids,
faults on the raw path (log 9). -/
def execEmit (ty : RtpType) (pre m sinkEn : Bool) (pt : BitVec 7) (ts ssrc : U32) (d : Bytes) (s : State) :
    Host.Outcome State Fault Refusal :=
  if s.cfg.emitMax < d.length then .refused .dataOperandTooLong
  else if d.length = 0 ∨ sinkEn = false then .next (s.finishEmit ([], s.seq))
  else if pre then .next (s.finishEmit (emitPre ty m pt ts ssrc d s.seq))
  else if s.cfg.chunk = 0 then .fault .chunkNotPositive
  else .next (s.finishEmit (emitRaw s.cfg.chunk ty pt ts ssrc d s.seq))

end Sys2Proof.Machine
end

