-- ==== Sys2Proof/Machine/Dispatch.lean ====
section
/-! DEFINITION. One arm per constructor of Instr. -/

namespace Sys2Proof.Machine

def exec (i : Instr) (s : State) : Host.Outcome State Fault Refusal :=
  match i with
  | .cmdReset seq => Sys2Proof.Machine.execReset seq s
  | .cmdDecode p => Sys2Proof.Machine.execDecode p s
  | .cmdEncode pt m ts ssrc => Sys2Proof.Machine.execEncode pt m ts ssrc s
  | .cmdFeed p => Sys2Proof.Machine.execFeed p s
  | .cmdEmit ty pre m sinkEn pt ts ssrc d => Sys2Proof.Machine.execEmit ty pre m sinkEn pt ts ssrc d s
  | .illegalOp5 w => Sys2Proof.Machine.execIllegalOp5 w s
  | .illegalOp6 w => Sys2Proof.Machine.execIllegalOp6 w s
  | .illegalOp7 w => Sys2Proof.Machine.execIllegalOp7 w s
  | .illegal w => Sys2Proof.Machine.execIllegal w s
  | .feedUnsupportedT0 p => Sys2Proof.Machine.execFeedUnsupportedT0 p s
  | .feedSingleT1 p => Sys2Proof.Machine.execFeedSingleT1 p s
  | .feedSingleT2to3 p => Sys2Proof.Machine.execFeedSingleT2to3 p s
  | .feedSingleT4to7 p => Sys2Proof.Machine.execFeedSingleT4to7 p s
  | .feedSingleT8to15 p => Sys2Proof.Machine.execFeedSingleT8to15 p s
  | .feedSingleT16to23 p => Sys2Proof.Machine.execFeedSingleT16to23 p s
  | .feedStapa p => Sys2Proof.Machine.execFeedStapa p s
  | .feedUnsupportedT25 p => Sys2Proof.Machine.execFeedUnsupportedT25 p s
  | .feedUnsupportedT26to27 p => Sys2Proof.Machine.execFeedUnsupportedT26to27 p s
  | .feedFuaMiddle p => Sys2Proof.Machine.execFeedFuaMiddle p s
  | .feedFuaEnd p => Sys2Proof.Machine.execFeedFuaEnd p s
  | .feedFuaStart p => Sys2Proof.Machine.execFeedFuaStart p s
  | .feedFuaSingle p => Sys2Proof.Machine.execFeedFuaSingle p s
  | .feedUnsupportedT29 p => Sys2Proof.Machine.execFeedUnsupportedT29 p s
  | .feedUnsupportedT30to31 p => Sys2Proof.Machine.execFeedUnsupportedT30to31 p s

end Sys2Proof.Machine
end

