-- ==== Sys2Proof/Machine/Step.lean ====
section
/-! DEFINITION. One step: the block takes the host's next command and executes it as one atomic transition (00_scope.md
R16, 20_memory.md R51). With no command issued it is idle and its state stays (60_exceptions.md R113; log 2). -/

namespace Sys2Proof.Machine

/-- One step of the block. -/
def step (s : State) : Host.Outcome State Fault Refusal :=
  match s.takeCommand with
  | none => .next s
  | some (c, s') => exec (decode c) s'

/-- The state with the command of an opcode-table word put first among the commands the host issues, so that the next
step takes and runs it (log 2, log 10). -/
def State.withFetchWord (s : State) (nbits w : Nat) : State :=
  s.withIssued (tableCommand nbits w :: s.issued)

end Sys2Proof.Machine
end

