-- ==== Sys2Proof/Safety.lean ====
section
/-! DEFINITION. What counts as a good state, and the terms the claims use. -/

namespace Sys2Proof.Machine

/-- The packet of an instruction of the FEED command, its dispatch rows among them. -/
def feedPacket : Instr → Option Bytes
  | .cmdReset _ => none
  | .cmdDecode _ => none
  | .cmdEncode _ _ _ _ => none
  | .cmdFeed p => some p
  | .cmdEmit _ _ _ _ _ _ _ _ => none
  | .illegalOp5 _ => none
  | .illegalOp6 _ => none
  | .illegalOp7 _ => none
  | .illegal _ => none
  | .feedUnsupportedT0 p => some p
  | .feedSingleT1 p => some p
  | .feedSingleT2to3 p => some p
  | .feedSingleT4to7 p => some p
  | .feedSingleT8to15 p => some p
  | .feedSingleT16to23 p => some p
  | .feedStapa p => some p
  | .feedUnsupportedT25 p => some p
  | .feedUnsupportedT26to27 p => some p
  | .feedFuaMiddle p => some p
  | .feedFuaEnd p => some p
  | .feedFuaStart p => some p
  | .feedFuaSingle p => some p
  | .feedUnsupportedT29 p => some p
  | .feedUnsupportedT30to31 p => some p

/-- The row of the dispatch that an instruction of the FEED command with the packet `p` runs: the row the packet selects
for FEED itself, and itself for a row (41_h264_deframer.md R81; log 3). -/
def feedRow (p : Bytes) (i : Instr) : Instr := if i = .cmdFeed p then feedInstr p else i

/-- The refusal an instruction meets under the parameters `c`: a DECODE or FEED packet longer than `PKT_MAX`, EMIT data
longer than `EMIT_MAX` (20_memory.md R40). RESET, ENCODE and an illegal word use no operand. -/
def operandRefusal (c : Config) (i : Instr) : Option Refusal :=
  match i, feedPacket i with
  | _, some p => if c.pktMax < p.length then some .packetOperandTooLong else none
  | .cmdDecode p, none => if c.pktMax < p.length then some .packetOperandTooLong else none
  | .cmdEmit _ _ _ _ _ _ _ d, none => if c.emitMax < d.length then some .dataOperandTooLong else none
  | _, none => none

/-- The statuses a command may return (60_exceptions.md R99, column "raised by"). -/
def allowedStatuses (i : Instr) : List Status :=
  match i, feedPacket i with
  | _, some _ => [.complete, .pending, .malformedPacket, .malformedHeader, .malformedAggregation, .unsupportedNaluType,
      .frameOverflow]
  | .cmdDecode _, none => [.ok, .malformedHeader]
  | .illegalOp5 _, none => [.illegalCommand]
  | .illegalOp6 _, none => [.illegalCommand]
  | .illegalOp7 _, none => [.illegalCommand]
  | .illegal _, none => [.illegalCommand]
  | _, none => [.ok]

/-- The RTP headers and packets a response carries: ENCODE's `H`, or EMIT's packets (R30, R32). -/
def Response.packets (r : Response) : List Bytes :=
  match r.result with
  | .nothing => []
  | .header _ => []
  | .encoded h => [h]
  | .frame _ => []
  | .outputs outs => outs.map SinkOutput.bytes

/-- The fragment bytes of a FU-A packet: its payload after the FU indicator and the FU header (30_encoding.md R71). -/
def fuaFragmentBytes (p : Bytes) : Bytes :=
  match parseHeader p with
  | none => []
  | some h => h.payload.drop 2

/-- One aggregation unit of a STAP-A payload: its size, big-endian, and its bytes (30_encoding.md R72). -/
def stapaUnit (unit : Bytes) : Bytes := u16be (BitVec.ofNat 16 unit.length) ++ unit

/-- A frame without its windows. -/
def FrameRegs.eraseWindows (f : FrameRegs) : FrameRegs :=
  { f with parts := f.parts.map (fun part => ⟨part.ptype, part.data, none⟩) }

/-- The response carries a frame exactly with COMPLETE, and that frame is FRM as it stands, with its view valid (R31). -/
def State.responseFits (s : State) : Bool :=
  match s.resp with
  | none => true
  | some r =>
    match r.result with
    | .frame f => (r.status == .complete) && s.viewValid && (f == s.frm)
    | _ => r.status != .complete

/-- The invariant of a run: the parameters keep R8 and R10, the memory has its canonical form (R24, R38, R82), and the
response fits FRM (R31). -/
def State.good (s : State) : Bool :=
  s.cfg.valid && Memory.wf s.cfg s.frm && s.responseFits

end Sys2Proof.Machine
end

