-- ==== Sys2Proof/Certificates/Slice0/Obligations.lean ====
section
/-! DEFINITION. The statements for the provers. Each docstring names the rule of spec/ it formalises, and the decisions of
92_eei_decisions.md (the spec's own choices) it reads. -/

open Sys2Proof Sys2Proof.Machine

/-! ### Reset and the run of commands -/

/-- R114 (D6, D9): power-on reset, for every choice of the parameters. -/
def Obligations.PowerOnState : Prop :=
  ∀ c : Config,
    (State.powerOn c).frm.nalType = 0#5 ∧ (State.powerOn c).frm.ssrc = 0#32 ∧ (State.powerOn c).frm.ts = 0#32 ∧
    (State.powerOn c).frm.len = 0 ∧ (State.powerOn c).frm.parts = [] ∧ (State.powerOn c).seq = c.seqInit ∧
    (State.powerOn c).resp = none ∧ (State.powerOn c).view = none

/-- The host's next command is decoded and executed as one step, taken from the commands to issue (R51; log 2). -/
def Obligations.StepRunsNextCommand : Prop :=
  ∀ (s : State) (c : Command) (rest : List Command),
    s.issued = c :: rest → step s = exec (decode c) (s.withIssued rest)

/-- With no command issued the block is idle and its state stays (60_exceptions.md R113, which the spec marks as its own
inference; log 2). -/
def Obligations.IdleStepKeepsState : Prop :=
  ∀ s : State, s.issued = [] → step s = .next s

/-- R115 (D7): RESET, and its corner case `seq = SEQ_INIT`. -/
def Obligations.ResetAnswers : Prop :=
  (∀ (s : State) (seq : U16),
    exec (.cmdReset seq) s = .next
      { s with frm := { nalType := 0#5, ssrc := 0#32, ts := 0#32, len := 0, parts := [] }, seq := seq,
               viewValid := false, resp := some ⟨.ok, .nothing⟩ }) ∧
  (∀ s : State, ∃ t, exec (.cmdReset s.cfg.seqInit) s = .next t ∧
    t.frm = (State.powerOn s.cfg).frm ∧ t.seq = (State.powerOn s.cfg).seq ∧ t.view = none)

/-! ### Encodings -/

/-- Decoding the command of a well-formed instruction gives the instruction back (R57 to R62, R74, R75). -/
def Obligations.DecodeEncodeAgree : Prop :=
  ∀ i : Instr, i.wellFormed = true → decode (encode i) = i

/-- Every command decodes to a well-formed instruction: the masks of the opcode table select exactly the NAL types of R74,
the S and E of R75 and the words of R61. -/
def Obligations.DecodedInstrWellFormed : Prop :=
  ∀ c : Command, (decode c).wellFormed = true

/-- R57, R58: the fields of a command word whose reserved bits are 0, as arithmetic on the word; what a command does not
use has no influence. -/
def Obligations.CommandFields : Prop :=
  ∀ c : Command, c.cmd.toNat < 2 ^ 15 →
    (c.cmd.toNat % 8 = 0 → decode c = .cmdReset (BitVec.ofNat 16 c.arg0.toNat)) ∧
    (c.cmd.toNat % 8 = 1 → decode c = .cmdDecode c.operand) ∧
    (c.cmd.toNat % 8 = 2 →
      decode c = .cmdEncode (BitVec.ofNat 7 (c.cmd.toNat / 256)) (decide (c.cmd.toNat / 16 % 2 = 1)) c.arg0 c.arg1) ∧
    (c.cmd.toNat % 8 = 3 → feedPacket (decode c) = some c.operand ∧ decode c = feedInstr c.operand) ∧
    (c.cmd.toNat % 8 = 4 →
      decode c = .cmdEmit
        (([.audio, .video, .audioControl, .videoControl] : List RtpType).getD (c.cmd.toNat / 64 % 4) .audio)
        (decide (c.cmd.toNat / 8 % 2 = 1)) (decide (c.cmd.toNat / 16 % 2 = 1)) (decide (c.cmd.toNat / 32 % 2 = 1))
        (BitVec.ofNat 7 (c.cmd.toNat / 256)) c.arg0 c.arg1 c.operand) ∧
    (c.cmd.toNat % 8 = 5 → decode c = .illegalOp5 c.cmd) ∧
    (c.cmd.toNat % 8 = 6 → decode c = .illegalOp6 c.cmd) ∧
    (c.cmd.toNat % 8 = 7 → decode c = .illegalOp7 c.cmd)

/-- R61 (D23): which words are illegal, by which row, and that an illegal command returns IllegalCommand and changes
nothing, whatever its operand; and no other word returns it. -/
def Obligations.IllegalWordsAnswer : Prop :=
  (∀ (s : State) (w : U32),
    exec (.illegalOp5 w) s = .next { s with resp := some ⟨.illegalCommand, .nothing⟩ } ∧
    exec (.illegalOp6 w) s = .next { s with resp := some ⟨.illegalCommand, .nothing⟩ } ∧
    exec (.illegalOp7 w) s = .next { s with resp := some ⟨.illegalCommand, .nothing⟩ } ∧
    exec (.illegal w) s = .next { s with resp := some ⟨.illegalCommand, .nothing⟩ }) ∧
  (∀ c : Command, (5 ≤ c.cmd.toNat % 8 ∨ 2 ^ 15 ≤ c.cmd.toNat) →
    decode c = if c.cmd.toNat % 8 = 5 then .illegalOp5 c.cmd else if c.cmd.toNat % 8 = 6 then .illegalOp6 c.cmd
      else if c.cmd.toNat % 8 = 7 then .illegalOp7 c.cmd else .illegal c.cmd) ∧
  (∀ (c : Command) (s t : State) (r : Response), c.cmd.toNat % 8 < 5 → c.cmd.toNat < 2 ^ 15 →
    exec (decode c) s = .next t → t.resp = some r → r.status ≠ .illegalCommand)

/-- R74: the dispatch of FEED, as arithmetic on the NAL type; and the forms S and E select in the FU-A case. -/
def Obligations.FeedDispatchRows : Prop :=
  ∀ (p : Bytes) (h : HeaderInfo), parseHeader p = some h → h.ps < h.pe →
    let t := (byteAt p h.ps).toNat % 32
    let fu := (byteAt p (h.ps + 1)).toNat
    (t = 0 → feedInstr p = .feedUnsupportedT0 p) ∧
    (t = 1 → feedInstr p = .feedSingleT1 p) ∧
    (2 ≤ t ∧ t ≤ 3 → feedInstr p = .feedSingleT2to3 p) ∧
    (4 ≤ t ∧ t ≤ 7 → feedInstr p = .feedSingleT4to7 p) ∧
    (8 ≤ t ∧ t ≤ 15 → feedInstr p = .feedSingleT8to15 p) ∧
    (16 ≤ t ∧ t ≤ 23 → feedInstr p = .feedSingleT16to23 p) ∧
    (t = 24 → feedInstr p = .feedStapa p) ∧
    (t = 25 → feedInstr p = .feedUnsupportedT25 p) ∧
    (26 ≤ t ∧ t ≤ 27 → feedInstr p = .feedUnsupportedT26to27 p) ∧
    (t = 28 → 2 ≤ h.pe - h.ps →
      feedInstr p =
        if 128 ≤ fu then (if fu / 64 % 2 = 1 then .feedFuaSingle p else .feedFuaStart p)
        else (if fu / 64 % 2 = 1 then .feedFuaEnd p else .feedFuaMiddle p)) ∧
    (t = 29 → feedInstr p = .feedUnsupportedT29 p) ∧
    (30 ≤ t → feedInstr p = .feedUnsupportedT30to31 p)

/-- Words written out from the spec's encodings (R57, R58, R62, R74, R75; the words of V-N1, V-M6, V-X1, V-X3, X4). -/
def Obligations.SampleWordsDecode : Prop :=
  decode ⟨0x00006012#32, 0x01020304#32, 0xAABBCCDD#32, []⟩ = .cmdEncode 96#7 true 0x01020304#32 0xAABBCCDD#32 ∧
  decode ⟨0x0000607C#32, 0x00005000#32, 0x0000002A#32, [1#8]⟩ =
    .cmdEmit .video true true true 96#7 0x00005000#32 0x0000002A#32 [1#8] ∧
  decode ⟨0x00000000#32, 0xABCD0001#32, 0#32, []⟩ = .cmdReset 1#16 ∧
  decode ⟨0x00000001#32, 0#32, 0#32, [7#8]⟩ = .cmdDecode [7#8] ∧
  decode ⟨0x00000005#32, 0#32, 0#32, []⟩ = .illegalOp5 5#32 ∧
  decode ⟨0x00008003#32, 0#32, 0#32, []⟩ = .illegal 0x8003#32 ∧
  decode ⟨0x00000003#32, 0#32, 0#32,
      [0x80#8, 0x60#8, 0#8, 1#8, 0#8, 0#8, 0x0B#8, 0xB8#8, 0#8, 0#8, 0#8, 0x2A#8, 0x65#8, 0x88#8, 0x84#8, 0#8]⟩ =
    .feedSingleT4to7
      [0x80#8, 0x60#8, 0#8, 1#8, 0#8, 0#8, 0x0B#8, 0xB8#8, 0#8, 0#8, 0#8, 0x2A#8, 0x65#8, 0x88#8, 0x84#8, 0#8]

/-! ### Statuses, completion and refusal -/

/-- The codes of R99's table. -/
def Obligations.StatusCodes : Prop :=
  ([.ok, .complete, .pending, .malformedPacket, .malformedHeader, .malformedAggregation, .unsupportedNaluType,
    .frameOverflow, .illegalCommand] : List Status).map Status.code =
    [0#4, 1#4, 2#4, 3#4, 4#4, 5#4, 6#4, 7#4, 8#4] ∧
  ∀ a b : Status, a.code = b.code → a = b

/-- Every command whose operand is within its limit completes, in every state with valid parameters, with exactly one
status, one that R99 lets it raise. -/
def Obligations.EveryCommandAnswers : Prop :=
  ∀ (i : Instr) (s : State), s.cfg.valid = true → operandRefusal s.cfg i = none →
    ∃ t r, exec i s = .next t ∧ t.resp = some r ∧ r.status ∈ allowedStatuses i

/-- A packet operand longer than PKT_MAX (DECODE, FEED) or a data operand longer than EMIT_MAX (EMIT) is refused, and nothing
else is (20_memory.md R40; D24). The run stops there and stays refused: that is the model's reading of the refusal mark R40
keeps for the rest of the run (log 4; the list of commands to issue, log 2). -/
def Obligations.OversizedOperandRefused : Prop :=
  (∀ (i : Instr) (s : State) (r : Refusal), exec i s = .refused r ↔ operandRefusal s.cfg i = some r) ∧
  (∀ (s : State) (c : Command) (rest : List Command) (r : Refusal) (n : Nat),
    s.issued = c :: rest → operandRefusal s.cfg (decode c) = some r →
    Host.Core.run Sys2Proof.core (n + 1) s = .refused r)

/-! ### The header codec -/

/-- R76 (D10, D11, D12, D13): DECODE, the whole of its pseudocode as arithmetic on the packet's bytes. -/
def Obligations.DecodeAnswers : Prop :=
  ∀ (s : State) (p : Bytes), p.length ≤ s.cfg.pktMax →
    let b : Nat → Nat := fun i => (p.getD i 0#8).toNat
    let x : Bool := decide (b 0 / 16 % 2 = 1)
    let pf : Bool := decide (b 0 / 32 % 2 = 1)
    let ps0 : Nat := 12 + 4 * (b 0 % 16)
    let xp : Nat := if x then b ps0 * 256 + b (ps0 + 1) else 0
    let xl : Nat := if x then b (ps0 + 2) * 256 + b (ps0 + 3) else 0
    let ps : Nat := if x then ps0 + 4 + 4 * xl else ps0
    let pl : Nat := if pf then b (p.length - 1) else 0
    let pe : Int := (p.length : Int) - (pl : Int)
    let fits : Prop := 12 ≤ p.length ∧ ps0 ≤ p.length ∧ (x = true → ps0 + 4 ≤ p.length) ∧ ps ≤ p.length ∧ (ps : Int) ≤ pe
    (fits → exec (.cmdDecode p) s = .next { s with resp := some ⟨.ok, .header
      { v := BitVec.ofNat 2 (b 0 / 64), pf := pf, pl := BitVec.ofNat 8 pl, x := x, xp := BitVec.ofNat 16 xp,
        xl := BitVec.ofNat 16 xl, cc := BitVec.ofNat 4 (b 0), m := decide (128 ≤ b 1), pt := BitVec.ofNat 7 (b 1),
        sn := BitVec.ofNat 16 (b 2 * 256 + b 3),
        ts := BitVec.ofNat 32 (b 4 * 2 ^ 24 + b 5 * 2 ^ 16 + b 6 * 2 ^ 8 + b 7),
        ssrc := BitVec.ofNat 32 (b 8 * 2 ^ 24 + b 9 * 2 ^ 16 + b 10 * 2 ^ 8 + b 11),
        ps := ps, pe := pe.toNat, payload := (p.take pe.toNat).drop ps }⟩ }) ∧
    (¬ fits → exec (.cmdDecode p) s = .next { s with resp := some ⟨.malformedHeader, .nothing⟩ })

/-- A record DECODE returns has its payload inside the packet (00_scope.md R14, 20_memory.md R46, 30_encoding.md R67). -/
def Obligations.DecodePayloadInPacket : Prop :=
  ∀ (s t : State) (p : Bytes) (h : HeaderInfo), exec (.cmdDecode p) s = .next t → t.resp = some ⟨.ok, .header h⟩ →
    12 ≤ h.ps ∧ h.ps ≤ h.pe ∧ h.pe ≤ p.length ∧ h.ps ≤ 262216 ∧ h.payload.length = h.pe - h.ps ∧
    ∀ k, k < h.payload.length → h.payload[k]? = p[h.ps + k]?

/-- R79, R68 (D8): ENCODE's 12 bytes and its advance of SEQ, as arithmetic. -/
def Obligations.EncodeAnswers : Prop :=
  ∀ (s : State) (pt : BitVec 7) (m : Bool) (ts ssrc : U32),
    exec (.cmdEncode pt m ts ssrc) s = .next
      { s with
        seq := BitVec.ofNat 16 ((s.seq.toNat + 1) % 65536),
        resp := some ⟨.ok, .encoded
          [0x80#8, BitVec.ofNat 8 (m.toNat * 0x80 + pt.toNat),
           BitVec.ofNat 8 (s.seq.toNat / 2 ^ 8), BitVec.ofNat 8 s.seq.toNat,
           BitVec.ofNat 8 (ts.toNat / 2 ^ 24), BitVec.ofNat 8 (ts.toNat / 2 ^ 16), BitVec.ofNat 8 (ts.toNat / 2 ^ 8),
           BitVec.ofNat 8 ts.toNat,
           BitVec.ofNat 8 (ssrc.toNat / 2 ^ 24), BitVec.ofNat 8 (ssrc.toNat / 2 ^ 16),
           BitVec.ofNat 8 (ssrc.toNat / 2 ^ 8), BitVec.ofNat 8 ssrc.toNat]⟩ }

/-- DECODE inverts ENCODE: the header ENCODE writes, with any payload after it, decodes to the fields ENCODE was given and
the SEQ it used (40_rtp_header.md R78, an inference the spec marks as its own). -/
def Obligations.DecodeInvertsEncode : Prop :=
  ∀ (s t : State) (pt : BitVec 7) (m : Bool) (ts ssrc : U32) (hdr payload : Bytes),
    exec (.cmdEncode pt m ts ssrc) s = .next t → t.resp = some ⟨.ok, .encoded hdr⟩ →
    12 + payload.length ≤ s.cfg.pktMax →
    exec (.cmdDecode (hdr ++ payload)) t = .next { t with resp := some ⟨.ok, .header
      { v := 2#2, pf := false, pl := 0#8, x := false, xp := 0#16, xl := 0#16, cc := 0#4, m := m, pt := pt,
        sn := s.seq, ts := ts, ssrc := ssrc, ps := 12, pe := 12 + payload.length, payload := payload }⟩ }

/-! ### The deframer -/

/-- The steps of R81 before the dispatch, with the priority of R102, for FEED and every row of its dispatch (D14; C1). -/
def Obligations.FeedEntryFailures : Prop :=
  ∀ (i : Instr) (s : State) (p : Bytes), feedPacket i = some p → p.length ≤ s.cfg.pktMax →
    (p.length < 12 →
      exec i s = .next { s with viewValid := false, resp := some ⟨.malformedPacket, .nothing⟩ }) ∧
    (12 ≤ p.length → parseHeader p = none →
      exec i s = .next { s with viewValid := false, resp := some ⟨.malformedHeader, .nothing⟩ }) ∧
    (∀ h, parseHeader p = some h → h.ps = h.pe →
      exec i s = .next { s with viewValid := false, resp := some ⟨.malformedPacket, .nothing⟩ })

/-- FEED of any packet does what the row its packet selects does (R81, R74, R75). -/
def Obligations.FeedDoesWhatItsRowDoes : Prop :=
  ∀ (p : Bytes) (s : State), exec (.cmdFeed p) s = exec (feedInstr p) s

/-- R85 (window by R82, D16): a single NAL unit is a complete frame, or overflows the buffer (R84, D21). -/
def Obligations.SingleNalAnswers : Prop :=
  ∀ (s : State) (p : Bytes) (h : HeaderInfo) (i : Instr),
    i ∈ [Instr.feedSingleT1 p, .feedSingleT2to3 p, .feedSingleT4to7 p, .feedSingleT8to15 p, .feedSingleT16to23 p,
      .cmdFeed p] →
    s.cfg.valid = true → p.length ≤ s.cfg.pktMax → parseHeader p = some h → h.ps < h.pe →
    1 ≤ (byteAt p h.ps).toNat % 32 → (byteAt p h.ps).toNat % 32 ≤ 23 →
    let t := BitVec.ofNat 5 (byteAt p h.ps).toNat
    let done : FrameRegs :=
      { nalType := t, ssrc := h.ssrc, ts := h.ts, len := h.pe - h.ps,
        parts := [⟨t, slice p h.ps h.pe, some (slice p (h.ps - 12) h.pe)⟩] }
    exec i s =
      if h.pe - h.ps ≤ s.cfg.frameBufMax then
        .next { s with frm := done, viewValid := true, resp := some ⟨.complete, .frame done⟩ }
      else
        .next { s with frm := { done with len := 0, parts := [] }, viewValid := false,
                       resp := some ⟨.frameOverflow, .nothing⟩ }

/-- R86 to R89 (D15, D17): a FU-A packet. `base` is the frame the fragment joins: with S = 1 a new frame holding the
rebuilt NAL header, with S = 0 whatever FRM holds. -/
def Obligations.FuaAnswers : Prop :=
  ∀ (s : State) (p : Bytes) (h : HeaderInfo) (i : Instr) (start fin : Bool),
    (i = match start, fin with
      | false, false => .feedFuaMiddle p
      | false, true => .feedFuaEnd p
      | true, false => .feedFuaStart p
      | true, true => .feedFuaSingle p) ∨
    (i = .cmdFeed p ∧ (byteAt p h.ps).toNat % 32 = 28 ∧ start = decide (128 ≤ (byteAt p (h.ps + 1)).toNat) ∧
      fin = decide ((byteAt p (h.ps + 1)).toNat / 64 % 2 = 1)) →
    s.cfg.valid = true → p.length ≤ s.cfg.pktMax → parseHeader p = some h → h.ps < h.pe →
    let ind := (byteAt p h.ps).toNat
    let fu := (byteAt p (h.ps + 1)).toNat
    let rt := BitVec.ofNat 5 fu
    let base : FrameRegs := if start then
        { nalType := rt, ssrc := h.ssrc, ts := h.ts, len := 1,
          parts := [⟨rt, [BitVec.ofNat 8 (ind / 32 * 32 + fu % 32)], none⟩] }
      else s.frm
    let done : FrameRegs :=
      { base with
        len := base.len + (h.pe - (h.ps + 2)),
        parts := base.parts ++ [⟨rt, slice p (h.ps + 2) h.pe, some (slice p (h.ps + 2 - 12) h.pe)⟩] }
    (h.pe - h.ps < 2 →
      exec i s = .next { s with viewValid := false, resp := some ⟨.malformedPacket, .nothing⟩ }) ∧
    (2 ≤ h.pe - h.ps → done.len ≤ s.cfg.frameBufMax → s.cfg.partsFit done.parts.length = true →
      exec i s = .next
        { s with frm := done, viewValid := fin,
                 resp := some (if fin then ⟨.complete, .frame done⟩ else ⟨.pending, .nothing⟩) }) ∧
    (2 ≤ h.pe - h.ps → ¬ (done.len ≤ s.cfg.frameBufMax ∧ s.cfg.partsFit done.parts.length = true) →
      exec i s = .next
        { s with frm := { base with len := 0, parts := [] }, viewValid := false,
                 resp := some ⟨.frameOverflow, .nothing⟩ })

/-- FEED.STAPA (41_h264_deframer.md R90; D17, D18, D19; the first unit's offset is general knowledge in the spec's own
words, log 24): a payload of whole units with at most one byte after them, one cut short by a unit longer than what
remains, and one whose next unit would pass the buffer or the part list. -/
def Obligations.StapaAnswers : Prop :=
  ∀ (s : State) (p : Bytes) (h : HeaderInfo) (i : Instr) (units : List Bytes) (rest : Bytes),
    i ∈ [Instr.feedStapa p, .cmdFeed p] → (byteAt p h.ps).toNat % 32 = 24 →
    s.cfg.valid = true → p.length ≤ s.cfg.pktMax → parseHeader p = some h → h.ps < h.pe →
    slice p (h.ps + 1) h.pe = units.flatMap stapaUnit ++ rest → (∀ u ∈ units, u.length < 2 ^ 16) →
    (units.map List.length).sum ≤ s.cfg.frameBufMax → s.cfg.partsFit units.length = true →
    let empty : FrameRegs := { nalType := 24#5, ssrc := h.ssrc, ts := h.ts, len := 0, parts := [] }
    let done : FrameRegs :=
      { empty with
        len := (units.map List.length).sum,
        parts := units.map (fun u => ⟨match u with | [] => 0#5 | b :: _ => BitVec.ofNat 5 b.toNat, u, none⟩) }
    (rest.length < 2 →
      exec i s = .next { s with frm := done, viewValid := true, resp := some ⟨.complete, .frame done⟩ }) ∧
    (∀ hi lo tail, rest = hi :: lo :: tail → tail.length < hi.toNat * 256 + lo.toNat →
      exec i s = .next { s with frm := empty, viewValid := false, resp := some ⟨.malformedAggregation, .nothing⟩ }) ∧
    (∀ u tail, rest = stapaUnit u ++ tail → u.length < 2 ^ 16 →
      ¬ (done.len + u.length ≤ s.cfg.frameBufMax ∧ s.cfg.partsFit (units.length + 1) = true) →
      exec i s = .next { s with frm := empty, viewValid := false, resp := some ⟨.frameOverflow, .nothing⟩ })

/-- R91: an unsupported NAL type is rejected and FRM is untouched. -/
def Obligations.UnsupportedAnswers : Prop :=
  ∀ (s : State) (p : Bytes) (h : HeaderInfo) (i : Instr),
    i ∈ [Instr.feedUnsupportedT0 p, .feedUnsupportedT25 p, .feedUnsupportedT26to27 p, .feedUnsupportedT29 p,
      .feedUnsupportedT30to31 p, .cmdFeed p] →
    p.length ≤ s.cfg.pktMax → parseHeader p = some h → h.ps < h.pe →
    (byteAt p h.ps).toNat % 32 ∈ [0, 25, 26, 27, 29, 30, 31] →
    exec i s = .next { s with viewValid := false, resp := some ⟨.unsupportedNaluType, .nothing⟩ }

/-- The state effect of each error (60_exceptions.md R100; D19, D21; the row a FEED runs, log 3). After FrameOverflow the
parts are gone and the other fields are what this FEED had written before the failing append (R84): nothing for a FU-A
continuation, so the old fields stay; the packet's SSRC and timestamp with the FU header's type for a FU-A start, with the
packet's NAL type for a single NAL unit, and with 24 for a STAP-A. -/
def Obligations.ErrorsLeaveState : Prop :=
  ∀ (i : Instr) (s t : State) (r : Response), exec i s = .next t → t.resp = some r → r.status.isError = true →
    r.result = .nothing ∧ t.seq = s.seq ∧ t.cfg = s.cfg ∧
    (r.status = .illegalCommand → t = { s with resp := some ⟨.illegalCommand, .nothing⟩ }) ∧
    (r.status ∈ [Status.illegalCommand, .malformedPacket, .malformedHeader, .unsupportedNaluType] → t.frm = s.frm) ∧
    (r.status = .malformedAggregation → ∃ p h, feedPacket i = some p ∧ parseHeader p = some h ∧
      t.frm = { nalType := 24#5, ssrc := h.ssrc, ts := h.ts, len := 0, parts := [] }) ∧
    (r.status = .frameOverflow → ∃ p h, feedPacket i = some p ∧ parseHeader p = some h ∧
      ((feedRow p i ∈ [Instr.feedFuaMiddle p, .feedFuaEnd p] ∧ t.frm = { s.frm with len := 0, parts := [] }) ∨
       (feedRow p i ∈ [Instr.feedFuaStart p, .feedFuaSingle p] ∧
         t.frm = { nalType := BitVec.ofNat 5 (byteAt p (h.ps + 1)).toNat, ssrc := h.ssrc, ts := h.ts, len := 0, parts := [] }) ∨
       (feedRow p i ∈ [Instr.feedSingleT1 p, .feedSingleT2to3 p, .feedSingleT4to7 p, .feedSingleT8to15 p,
          .feedSingleT16to23 p] ∧
         t.frm = { nalType := BitVec.ofNat 5 (byteAt p h.ps).toNat, ssrc := h.ssrc, ts := h.ts, len := 0, parts := [] }) ∨
       (feedRow p i = .feedStapa p ∧
         t.frm = { nalType := 24#5, ssrc := h.ssrc, ts := h.ts, len := 0, parts := [] })))

/-- The frame view (10_state.md R31, in part the spec's own inference; D5; log 5): it comes with COMPLETE and only
with it, it is FRM as it stands, and it stays as it is until the next FEED or RESET. -/
def Obligations.FrameViewValidity : Prop :=
  ∀ (i : Instr) (s t : State), exec i s = .next t →
    (∀ p, feedPacket i = some p →
      (t.resp = some ⟨.complete, .frame t.frm⟩ ∧ t.view = some t.frm) ∨
      (∃ st, st ≠ Status.complete ∧ t.resp = some ⟨st, .nothing⟩ ∧ t.view = none)) ∧
    (∀ seq, i = .cmdReset seq → t.view = none) ∧
    (feedPacket i = none → (∀ seq, i ≠ .cmdReset seq) → t.view = s.view)

/-- The windows (R82; D16): a window ends at the payload end, has 12 bytes of header room before the data, and is the
whole packet when there is no CSRC list, extension or padding. -/
def Obligations.WindowHoldsHeaderRoomAndData : Prop :=
  ∀ (p : Bytes) (h : HeaderInfo), parseHeader p = some h →
    (∀ off, h.ps ≤ off → off ≤ h.pe →
      (window p h off).length = 12 + (h.pe - off) ∧ (window p h off).drop 12 = slice p off h.pe) ∧
    (h.cc = 0#4 → h.x = false → h.pf = false → window p h h.ps = p)

/-- A FU-A continuation only appends: every byte of the frame data buffer and of the windows it holds stays, and the
fragment's bytes follow (R88, R84). The byte reads are the model's offsets into the parts (log 6). -/
def Obligations.ContinuationAppendsBytes : Prop :=
  ∀ (s t : State) (p : Bytes) (h : HeaderInfo) (i : Instr) (r : Response),
    i ∈ [Instr.feedFuaMiddle p, .feedFuaEnd p] → s.good = true → parseHeader p = some h → exec i s = .next t →
    t.resp = some r → r.status ∈ [Status.pending, .complete] →
    (∀ a, a < s.frm.len → t.frm.readByte a = s.frm.readByte a) ∧
    (∀ a, t.frm.readByte (s.frm.len + a) = if a < h.pe - (h.ps + 2) then p[h.ps + 2 + a]? else none) ∧
    (∀ k a, k < s.frm.parts.length → t.frm.readWindow k a = s.frm.readWindow k a)

/-- An in-order FU-A sequence of one start, any number of middles and one end gives PENDING for every packet before the
end and then one COMPLETE, whose bytes are the rebuilt NAL header and every fragment in order (41_h264_deframer.md R92, an
inference the spec marks as its own). The run takes the packets from the model's list of commands to issue (log 2). -/
def Obligations.FuaSequenceReassembles : Prop :=
  ∀ (s : State) (first last : Bytes) (mids : List Bytes) (h : HeaderInfo),
    s.issued = (first :: mids ++ [last]).map feedCommand → s.cfg.valid = true →
    (∀ p ∈ first :: mids ++ [last], p.length ≤ s.cfg.pktMax) →
    feedInstr first = .feedFuaStart first → (∀ p ∈ mids, feedInstr p = .feedFuaMiddle p) →
    feedInstr last = .feedFuaEnd last → parseHeader first = some h →
    1 + (((first :: mids ++ [last]).map fuaFragmentBytes).map List.length).sum ≤ s.cfg.frameBufMax →
    s.cfg.partsFit (mids.length + 3) = true →
    (∀ k, k ≤ mids.length →
      ∃ u : State, Host.Core.run Sys2Proof.core (k + 1) s = .next u ∧ u.resp = some ⟨.pending, .nothing⟩) ∧
    (∃ t : State, Host.Core.run Sys2Proof.core (mids.length + 2) s = .next t ∧
      t.resp = some ⟨.complete, .frame t.frm⟩ ∧ t.issued = [] ∧ t.seq = s.seq ∧
      t.frm.nalType = nalTypeField (byteAt first (h.ps + 1)) ∧ t.frm.ssrc = h.ssrc ∧ t.frm.ts = h.ts ∧
      t.frm.buffer = rebuiltHeader (byteAt first h.ps) (byteAt first (h.ps + 1)) ::
        (first :: mids ++ [last]).flatMap fuaFragmentBytes)

/-- FEED reads none of the version, marker, payload type and sequence number of its packet: two packets that differ only
there give the same status and the same frame but for the windows, which copy those bytes (30_encoding.md R73,
41_h264_deframer.md R93, inferences the spec marks as its own). -/
def Obligations.FeedIgnoresVersionMarkerTypeAndSequence : Prop :=
  ∀ (s t u : State) (b0 b0' b1 b1' b2 b2' b3 b3' : Byte) (rest : Bytes),
    b0.toNat % 64 = b0'.toNat % 64 →
    exec (.cmdFeed (b0 :: b1 :: b2 :: b3 :: rest)) s = .next t →
    exec (.cmdFeed (b0' :: b1' :: b2' :: b3' :: rest)) s = .next u →
    t.resp.map Response.status = u.resp.map Response.status ∧ t.frm.eraseWindows = u.frm.eraseWindows

/-! ### The packetizer -/

/-- R94's first line: no data or no sink, no packet and SEQ unchanged. -/
def Obligations.EmitWithoutDataOrSink : Prop :=
  ∀ (s : State) (ty : RtpType) (pre m sinkEn : Bool) (pt : BitVec 7) (ts ssrc : U32) (d : Bytes),
    d.length ≤ s.cfg.emitMax → d = [] ∨ sinkEn = false →
    exec (.cmdEmit ty pre m sinkEn pt ts ssrc d) s = .next { s with resp := some ⟨.ok, .outputs []⟩ }

/-- R95 (D25, D26; C5, C6): the pre-formatted path. -/
def Obligations.EmitPreformattedAnswers : Prop :=
  ∀ (s : State) (ty : RtpType) (m : Bool) (pt : BitVec 7) (ts ssrc : U32) (d : Bytes),
    d.length ≤ s.cfg.emitMax →
    exec (.cmdEmit ty true m true pt ts ssrc d) s =
      if d.length < 12 then .next { s with resp := some ⟨.ok, .outputs []⟩ }
      else .next { s with
        seq := BitVec.ofNat 16 ((s.seq.toNat + 1) % 65536),
        resp := some ⟨.ok, .outputs [⟨ty, headerBytes pt m s.seq ts ssrc ++ d.drop 12⟩]⟩ }

/-- R96: the raw path. `n = ceil(|D| / CHUNK)` packets; packet `k` carries the bytes from `k*CHUNK`, the number
`SEQ + k` and the marker of the last only; SEQ ends at `SEQ + n`. -/
def Obligations.EmitRawAnswers : Prop :=
  ∀ (s : State) (ty : RtpType) (m : Bool) (pt : BitVec 7) (ts ssrc : U32) (d : Bytes),
    s.cfg.valid = true → d.length ≤ s.cfg.emitMax → d ≠ [] →
    let chunk := s.cfg.maxPacketLen - 12
    let n := (d.length + (chunk - 1)) / chunk
    exec (.cmdEmit ty false m true pt ts ssrc d) s = .next { s with
      seq := BitVec.ofNat 16 (s.seq.toNat + n),
      resp := some ⟨.ok, .outputs ((List.range n).map (fun k =>
        ⟨ty, headerBytes pt (decide (k + 1 = n)) (BitVec.ofNat 16 (s.seq.toNat + k)) ts ssrc
          ++ (d.drop (k * chunk)).take chunk⟩))⟩ }

/-- The packets of the raw path carry the data, each within MAX_PACKET_LEN and with at least one payload byte, each with
the command's tag (42_packetizer.md R96, R98). -/
def Obligations.EmitRawCarriesData : Prop :=
  ∀ (s t : State) (ty : RtpType) (m : Bool) (pt : BitVec 7) (ts ssrc : U32) (d : Bytes) (outs : List SinkOutput),
    s.cfg.valid = true → d ≠ [] → exec (.cmdEmit ty false m true pt ts ssrc d) s = .next t →
    t.resp = some ⟨.ok, .outputs outs⟩ →
    outs.flatMap (fun o => o.bytes.drop 12) = d ∧
    ∀ o ∈ outs, o.ty = ty ∧ 12 < o.bytes.length ∧ o.bytes.length ≤ s.cfg.maxPacketLen

/-- R80: ENCODE and EMIT use one header encode and one sequence of numbers. Header `k` of a command's response, number
`SEQ + k`, is what ENCODE answers from that SEQ for the command's fields, and SEQ advances by the number of headers. -/
def Obligations.HeadersShareOneSequence : Prop :=
  ∀ (i : Instr) (s t : State) (r : Response), (∀ seq, i ≠ .cmdReset seq) → exec i s = .next t → t.resp = some r →
    t.seq = BitVec.ofNat 16 (s.seq.toNat + r.packets.length) ∧
    ∀ (k : Nat) (pkt : Bytes), r.packets[k]? = some pkt →
      be16 pkt 2 = BitVec.ofNat 16 (s.seq.toNat + k) ∧
      ∃ pt m ts ssrc, (∀ u : State, u.seq = BitVec.ofNat 16 (s.seq.toNat + k) →
          ∃ v, exec (.cmdEncode pt m ts ssrc) u = .next v ∧ v.resp = some ⟨.ok, .encoded (pkt.take 12)⟩) ∧
        (i = .cmdEncode pt m ts ssrc ∨ ∃ ty pre m' e d, i = .cmdEmit ty pre m' e pt ts ssrc d)

/-- A window a FEED stored is valid data for the pre-formatted path, which sends it with a new header and the part's bytes
unchanged (R82, R95; program P4 of 95_test_vectors.md). -/
def Obligations.WindowRetransmitsPart : Prop :=
  ∀ (s : State) (part : Part) (w : Bytes) (ty : RtpType) (m : Bool) (pt : BitVec 7) (ts ssrc : U32),
    s.good = true → part ∈ s.frm.parts → part.rtp = some w → w.length ≤ s.cfg.emitMax →
    exec (.cmdEmit ty true m true pt ts ssrc w) s = .next { s with
      seq := BitVec.ofNat 16 (s.seq.toNat + 1),
      resp := some ⟨.ok, .outputs [⟨ty, headerBytes pt m s.seq ts ssrc ++ part.data⟩]⟩ }

/-! ### Frames and invariants over all commands -/

/-- Who writes what (10_state.md R36): no command writes the parameters or the commands to issue; only FEED and RESET
write FRM, so every byte of the frame data buffer and of the windows reads as before after any other command; only ENCODE,
EMIT and RESET write SEQ. The byte reads are log 6, the commands to issue log 2. -/
def Obligations.WritersOfEachRegister : Prop :=
  ∀ (i : Instr) (s t : State), exec i s = .next t →
    t.cfg = s.cfg ∧ t.issued = s.issued ∧
    (feedPacket i = none → (∀ seq, i ≠ .cmdReset seq) →
      t.frm = s.frm ∧ t.viewValid = s.viewValid ∧ (∀ a, t.frm.readByte a = s.frm.readByte a) ∧
      ∀ k a, t.frm.readWindow k a = s.frm.readWindow k a) ∧
    ((∀ seq, i ≠ .cmdReset seq) → (∀ pt m ts ssrc, i ≠ .cmdEncode pt m ts ssrc) →
      (∀ ty pre m k pt ts ssrc d, i ≠ .cmdEmit ty pre m k pt ts ssrc d) → t.seq = s.seq)

/-- Who reads what (10_state.md R19): FEED does not read SEQ, ENCODE and EMIT do not read FRM, DECODE reads neither, and no
command reads the last response. -/
def Obligations.UnitsReadOnlyTheirState : Prop :=
  ∀ (i : Instr) (s t s' t' : State), s.cfg = s'.cfg → exec i s = .next t → exec i s' = .next t' →
    (∀ p, feedPacket i = some p → s.frm = s'.frm → t.frm = t'.frm ∧ t.resp = t'.resp) ∧
    (feedPacket i = none → s.seq = s'.seq → t.seq = t'.seq ∧ t.resp = t'.resp) ∧
    (∀ p, i = .cmdDecode p → t.resp = t'.resp)

/-- Every step keeps a good state good: valid parameters (00_scope.md R8, R10), the memory's canonical form (log 6), and a
response that fits FRM. In the memory's form, that FRM.len counts the parts' bytes is the invariant 10_state.md R24 states
and marks as its own inference; the bounds are those of 20_memory.md R38, and every window fits its part by
41_h264_deframer.md R82. That a response carries a frame exactly with COMPLETE, that frame being FRM with its view valid,
is 10_state.md R31, in part the spec's own inference (log 5); the response stays over idle steps (log 2, log 25). -/
def Obligations.StepKeepsGood : Prop :=
  ∀ s t : State, s.good = true → step s = .next t → t.good = true

/-- Power-on reset is a good state for every valid choice of the parameters; `State.reset` is it under the default
parameters, the model's choice (log 1). -/
def Obligations.PowerOnGood : Prop :=
  (∀ c : Config, c.valid = true → (State.powerOn c).good = true) ∧ State.reset = State.powerOn Config.default ∧
  State.reset.cfg.valid = true
end

