-- ==== Sys2Proof/Laws/Encoding.lean ====
section
/-! SUPPORT. The decoder and the encoder: what the masks of the opcode table test, the fields as arithmetic, and which row a
packet selects (30_encoding.md R57 to R62, R74, R75). -/

namespace Sys2Proof.Laws

open Sys2Proof.Machine

theorem toNat_mask_op (w : U32) : (w &&& 0x00000007#32).toNat = w.toNat % 8 := by
  rw [BitVec.toNat_and]
  exact Nat.and_two_pow_sub_one_eq_mod w.toNat 3

theorem split_cmd (w : U32) :
    w = w.extractLsb' 15 17 ++ w.extractLsb' 3 12 ++ w.extractLsb' 0 3 := by
  rw [BitVec.append_assoc, BitVec.extractLsb'_append_extractLsb'_eq_extractLsb' (by rfl)]
  simp only [BitVec.cast_eq]
  rw [BitVec.extractLsb'_append_extractLsb'_eq_extractLsb' (by rfl)]
  simp

theorem toNat_mask_cmd (w : U32) :
    (w &&& 0xFFFF8007#32).toNat = w.toNat / 2 ^ 15 * 2 ^ 15 + w.toNat % 8 := by
  have hm : (0xFFFF8007#32) = (0x1FFFF#17 ++ 0#12 ++ 7#3 : BitVec 32) := by decide
  have h : w &&& 0xFFFF8007#32 = (w.extractLsb' 15 17 ++ 0#12 ++ w.extractLsb' 0 3 : BitVec 32) := by
    conv_lhs => rw [split_cmd w, hm]
    rw [BitVec.and_append, BitVec.and_append]
    have h1 : ∀ x : BitVec 17, x &&& 0x1FFFF#17 = x := fun x => BitVec.and_allOnes (x := x)
    have h2 : ∀ x : BitVec 3, x &&& 7#3 = x := fun x => BitVec.and_allOnes (x := x)
    rw [h1, h2, BitVec.and_zero]
  rw [h]
  simp only [BitVec.toNat_append, BitVec.extractLsb'_toNat, BitVec.toNat_ofNat]
  have := w.isLt
  rw [← Nat.shiftLeft_add_eq_or_of_lt (by simp; omega), ← Nat.shiftLeft_add_eq_or_of_lt (by omega)]
  simp only [Nat.shiftLeft_eq, Nat.shiftRight_eq_div_pow]
  omega

/-- What a CMD32 row tests. -/
theorem cmdForm_eq (w : U32) :
    cmdForm w =
      if w.toNat % 8 = 5 then .op5 else if w.toNat % 8 = 6 then .op6 else if w.toNat % 8 = 7 then .op7
      else if 2 ^ 15 ≤ w.toNat then .other
      else if w.toNat % 8 = 0 then .reset else if w.toNat % 8 = 1 then .decode
      else if w.toNat % 8 = 2 then .encode else if w.toNat % 8 = 3 then .feed else .emit := by
  have e1 := toNat_mask_cmd w
  have e2 := toNat_mask_op w
  have e3 : (w &&& 0#32) = 0#32 := BitVec.and_zero
  have hw := w.isLt
  simp only [cmdForm, cmdRows, List.find?_cons, beq_eq_decide, ← BitVec.toNat_inj, e1, e2, e3, BitVec.toNat_ofNat]
  generalize hr : w.toNat % 8 = r
  have hr8 : r < 8 := by omega
  by_cases hb : 2 ^ 15 ≤ w.toNat
  · have hq : w.toNat / 2 ^ 15 ≠ 0 := by omega
    generalize w.toNat / 2 ^ 15 = q at hq
    have hne : ∀ k, k < 8 → ¬ (q * 2 ^ 15 + r = k) := by omega
    interval_cases r <;> simp_all
  · have hq : w.toNat / 2 ^ 15 = 0 := by omega
    interval_cases r <;> simp_all

/-! ### fields as arithmetic -/

theorem extractLsb'_eq_div {n : Nat} (x : BitVec n) (i k : Nat) :
    x.extractLsb' i k = BitVec.ofNat k (x.toNat / 2 ^ i) := by
  apply BitVec.eq_of_toNat_eq
  simp [BitVec.extractLsb'_toNat, Nat.shiftRight_eq_div_pow]

theorem getLsbD_eq_div {n : Nat} (x : BitVec n) (i : Nat) :
    x.getLsbD i = decide (x.toNat / 2 ^ i % 2 = 1) := by
  rw [← BitVec.testBit_toNat, Nat.testBit_eq_decide_div_mod_eq]

theorem toNat_assemble (op : Nat) (pre m sinkEn : Bool) (ty : BitVec 2) (pt : BitVec 7) (h : op < 8) :
    (assemble op pre m sinkEn ty pt).toNat =
      op + 8 * pre.toNat + 16 * m.toNat + 32 * sinkEn.toNat + 64 * ty.toNat + 256 * pt.toNat := by
  have := ty.isLt
  have := pt.isLt
  have := pre.toNat_le
  have := m.toNat_le
  have := sinkEn.toNat_le
  simp only [assemble, BitVec.toNat_ofNat]
  omega

theorem rtpTypeOf_code (ty : RtpType) : rtpTypeOf (rtpTypeCode ty) = ty := by
  cases ty <;> decide

theorem rtpTypeCode_of (b : BitVec 2) : rtpTypeCode (rtpTypeOf b) = b := by
  revert b; decide

/-- The fields the encoder assembles are the fields the decoder reads. -/
theorem assemble_fields (op : Nat) (pre m sinkEn : Bool) (ty : RtpType) (pt : BitVec 7) (a b : U32) (o : Bytes)
    (h : op < 8) :
    (Command.mk (assemble op pre m sinkEn (rtpTypeCode ty) pt) a b o).pre = pre ∧
    (Command.mk (assemble op pre m sinkEn (rtpTypeCode ty) pt) a b o).m = m ∧
    (Command.mk (assemble op pre m sinkEn (rtpTypeCode ty) pt) a b o).sinkEn = sinkEn ∧
    (Command.mk (assemble op pre m sinkEn (rtpTypeCode ty) pt) a b o).ty = ty ∧
    (Command.mk (assemble op pre m sinkEn (rtpTypeCode ty) pt) a b o).pt = pt := by
  have hw := toNat_assemble op pre m sinkEn (rtpTypeCode ty) pt h
  have h1 := (rtpTypeCode ty).isLt
  have h2 := pt.isLt
  simp only [Command.pre, Command.m, Command.sinkEn, Command.ty, Command.pt, getLsbD_eq_div, extractLsb'_eq_div, hw]
  have hty : BitVec.ofNat 2 ((op + 8 * pre.toNat + 16 * m.toNat + 32 * sinkEn.toNat + 64 * (rtpTypeCode ty).toNat
      + 256 * pt.toNat) / 2 ^ 6) = rtpTypeCode ty := by
    apply BitVec.eq_of_toNat_eq
    have := pre.toNat_le
    have := m.toNat_le
    have := sinkEn.toNat_le
    simp only [BitVec.toNat_ofNat]
    omega
  have hpt : BitVec.ofNat 7 ((op + 8 * pre.toNat + 16 * m.toNat + 32 * sinkEn.toNat + 64 * (rtpTypeCode ty).toNat
      + 256 * pt.toNat) / 2 ^ 8) = pt := by
    apply BitVec.eq_of_toNat_eq
    have := pre.toNat_le
    have := m.toNat_le
    have := sinkEn.toNat_le
    simp only [BitVec.toNat_ofNat]
    omega
  rw [hty, hpt, rtpTypeOf_code]
  refine ⟨?_, ?_, ?_, rfl, rfl⟩ <;> cases pre <;> cases m <;> cases sinkEn <;> simp <;> omega

theorem cmdForm_assemble (op : Nat) (pre m sinkEn : Bool) (ty : BitVec 2) (pt : BitVec 7) (h : op < 5) :
    cmdForm (assemble op pre m sinkEn ty pt) =
      if op = 0 then .reset else if op = 1 then .decode else if op = 2 then .encode
      else if op = 3 then .feed else .emit := by
  have hw := toNat_assemble op pre m sinkEn ty pt (by omega)
  have h1 := ty.isLt
  have h2 := pt.isLt
  have := pre.toNat_le
  have := m.toNat_le
  have := sinkEn.toNat_le
  have hr : (assemble op pre m sinkEn ty pt).toNat % 8 = op := by omega
  have hb : ¬ 2 ^ 15 ≤ (assemble op pre m sinkEn ty pt).toNat := by omega
  rw [cmdForm_eq, hr, if_neg (by omega), if_neg (by omega), if_neg (by omega), if_neg hb]

/-! ### the dispatch tables -/

theorem nalForm_eq (b : Byte) :
    nalForm b = some (
      if b.toNat % 32 = 0 then .unsupportedT0 else if b.toNat % 32 = 1 then .singleT1
      else if b.toNat % 32 ≤ 3 then .singleT2to3 else if b.toNat % 32 ≤ 7 then .singleT4to7
      else if b.toNat % 32 ≤ 15 then .singleT8to15 else if b.toNat % 32 ≤ 23 then .singleT16to23
      else if b.toNat % 32 = 24 then .stapa else if b.toNat % 32 = 25 then .unsupportedT25
      else if b.toNat % 32 ≤ 27 then .unsupportedT26to27 else if b.toNat % 32 = 28 then .fua
      else if b.toNat % 32 = 29 then .unsupportedT29 else .unsupportedT30to31) := by
  revert b; decide

theorem be16_eq_append (p : Bytes) (i : Nat) : be16 p i = byteAt p i ++ byteAt p (i + 1) := by
  apply BitVec.eq_of_toNat_eq
  have h1 := (byteAt p i).isLt
  have h2 := (byteAt p (i + 1)).isLt
  rw [be16, BitVec.toNat_ofNat, BitVec.toNat_append, ← Nat.shiftLeft_add_eq_or_of_lt h2, Nat.shiftLeft_eq]
  omega

theorem mask_byte_28 (ind : Byte) (h : ind.toNat % 32 = 28) : ind &&& 0x1F#8 = 0x1C#8 := by
  revert ind; decide

theorem fuaRowOf_append (ind fu : Byte) (h : ind.toNat % 32 = 28) :
    fuaRowOf (ind ++ fu) = some (
      if fuStart fu then (if fuEnd fu then .single else .start) else (if fuEnd fu then .finish else .middle)) := by
  have hm : (0x1FC0#16) = (0x1F#8 ++ 0xC0#8 : BitVec 16) := by decide
  have hw : (ind ++ fu) &&& 0x1FC0#16 = 0x1C#8 ++ (fu &&& 0xC0#8) := by
    rw [hm, BitVec.and_append, mask_byte_28 ind h]
  simp only [fuaRowOf, fuaRows, List.find?_cons, List.find?_nil, hw]
  clear hw hm h ind
  revert fu; decide

theorem nalTypeField_toNat (b : Byte) : (nalTypeField b).toNat = b.toNat % 32 := by
  simp [nalTypeField, extractLsb'_eq_div]

/-! ### the decoder by rows -/

/-- `feedInstr` by the NAL type and, in the FU-A case, by `S` and `E`: the one place its tables are opened. -/
theorem feedInstr_eq (p : Bytes) :
    feedInstr p =
      match feedHeader p with
      | none => .cmdFeed p
      | some h =>
        let t := (byteAt p h.ps).toNat % 32
        if t = 0 then .feedUnsupportedT0 p else if t = 1 then .feedSingleT1 p
        else if t ≤ 3 then .feedSingleT2to3 p else if t ≤ 7 then .feedSingleT4to7 p
        else if t ≤ 15 then .feedSingleT8to15 p else if t ≤ 23 then .feedSingleT16to23 p
        else if t = 24 then .feedStapa p else if t = 25 then .feedUnsupportedT25 p
        else if t ≤ 27 then .feedUnsupportedT26to27 p
        else if t = 28 then
          (if h.pe - h.ps < 2 then .cmdFeed p
           else if fuStart (byteAt p (h.ps + 1)) then
             (if fuEnd (byteAt p (h.ps + 1)) then .feedFuaSingle p else .feedFuaStart p)
           else (if fuEnd (byteAt p (h.ps + 1)) then .feedFuaEnd p else .feedFuaMiddle p))
        else if t = 29 then .feedUnsupportedT29 p else .feedUnsupportedT30to31 p := by
  unfold feedInstr
  cases hf : feedHeader p with
  | none => rfl
  | some h =>
    have hr := fuaRowOf_append (byteAt p h.ps) (byteAt p (h.ps + 1))
    simp only [nalForm_eq, fuaInstr, be16_eq_append]
    have ht : (byteAt p h.ps).toNat % 32 < 32 := Nat.mod_lt _ (by decide)
    generalize hte : (byteAt p h.ps).toNat % 32 = t at *
    interval_cases t
    all_goals first
      | rfl
      | skip
    rw [hr rfl]
    by_cases h2 : h.pe - h.ps < 2
    · simp [h2]
    · cases fuStart (byteAt p (h.ps + 1)) <;> cases fuEnd (byteAt p (h.ps + 1)) <;> simp [h2]

theorem decode_feedCommand (p : Bytes) : decode (feedCommand p) = feedInstr p := by
  simp [decode, feedCommand, cmdForm_assemble]

theorem feedInstr_wellFormed (p : Bytes) : (feedInstr p).wellFormed = true := by
  rw [feedInstr_eq]
  cases hf : feedHeader p with
  | none => simp [Instr.wellFormed, selectsNoRow, hf]
  | some h =>
    have ht : (byteAt p h.ps).toNat % 32 < 32 := Nat.mod_lt _ (by decide)
    generalize hte : (byteAt p h.ps).toNat % 32 = t at *
    interval_cases t
    all_goals first
      | (simp [Instr.wellFormed, nalTypeIn, hf, nalTypeField_toNat, hte]; done)
      | skip
    by_cases h2 : h.pe - h.ps < 2
    · simp [h2, Instr.wellFormed, selectsNoRow, hf, nalTypeField_toNat, hte]
    · have h2' : 2 ≤ h.pe - h.ps := by omega
      cases hs : fuStart (byteAt p (h.ps + 1)) <;> cases he : fuEnd (byteAt p (h.ps + 1)) <;>
        simp [h2, h2', hs, he, Instr.wellFormed, fuaForm, hf, nalTypeField_toNat, hte]

end Sys2Proof.Laws
end

