-- ==== Sys2Proof/Laws/State.lean ====
section
/-! SUPPORT. One lemma per field per update of State and of FRM, all true by rfl, so that no proof unfolds a record
update. -/

namespace Sys2Proof.Laws

open Sys2Proof.Machine

/-! ### Updates of State -/

@[simp] theorem withFrm_cfg (s : State) (f : FrameRegs) : (s.withFrm f).cfg = s.cfg := rfl
@[simp] theorem withFrm_frm (s : State) (f : FrameRegs) : (s.withFrm f).frm = f := rfl
@[simp] theorem withFrm_seq (s : State) (f : FrameRegs) : (s.withFrm f).seq = s.seq := rfl
@[simp] theorem withFrm_resp (s : State) (f : FrameRegs) : (s.withFrm f).resp = s.resp := rfl
@[simp] theorem withFrm_viewValid (s : State) (f : FrameRegs) : (s.withFrm f).viewValid = s.viewValid := rfl
@[simp] theorem withFrm_issued (s : State) (f : FrameRegs) : (s.withFrm f).issued = s.issued := rfl

@[simp] theorem withSeq_cfg (s : State) (n : U16) : (s.withSeq n).cfg = s.cfg := rfl
@[simp] theorem withSeq_frm (s : State) (n : U16) : (s.withSeq n).frm = s.frm := rfl
@[simp] theorem withSeq_seq (s : State) (n : U16) : (s.withSeq n).seq = n := rfl
@[simp] theorem withSeq_resp (s : State) (n : U16) : (s.withSeq n).resp = s.resp := rfl
@[simp] theorem withSeq_viewValid (s : State) (n : U16) : (s.withSeq n).viewValid = s.viewValid := rfl
@[simp] theorem withSeq_issued (s : State) (n : U16) : (s.withSeq n).issued = s.issued := rfl

@[simp] theorem withView_cfg (s : State) (b : Bool) : (s.withView b).cfg = s.cfg := rfl
@[simp] theorem withView_frm (s : State) (b : Bool) : (s.withView b).frm = s.frm := rfl
@[simp] theorem withView_seq (s : State) (b : Bool) : (s.withView b).seq = s.seq := rfl
@[simp] theorem withView_resp (s : State) (b : Bool) : (s.withView b).resp = s.resp := rfl
@[simp] theorem withView_viewValid (s : State) (b : Bool) : (s.withView b).viewValid = b := rfl
@[simp] theorem withView_issued (s : State) (b : Bool) : (s.withView b).issued = s.issued := rfl

@[simp] theorem withIssued_cfg (s : State) (cs : List Command) : (s.withIssued cs).cfg = s.cfg := rfl
@[simp] theorem withIssued_frm (s : State) (cs : List Command) : (s.withIssued cs).frm = s.frm := rfl
@[simp] theorem withIssued_seq (s : State) (cs : List Command) : (s.withIssued cs).seq = s.seq := rfl
@[simp] theorem withIssued_resp (s : State) (cs : List Command) : (s.withIssued cs).resp = s.resp := rfl
@[simp] theorem withIssued_viewValid (s : State) (cs : List Command) : (s.withIssued cs).viewValid = s.viewValid := rfl
@[simp] theorem withIssued_issued (s : State) (cs : List Command) : (s.withIssued cs).issued = cs := rfl

@[simp] theorem finish_cfg (s : State) (st : Status) (res : Result) : (s.finish st res).cfg = s.cfg := rfl
@[simp] theorem finish_frm (s : State) (st : Status) (res : Result) : (s.finish st res).frm = s.frm := rfl
@[simp] theorem finish_seq (s : State) (st : Status) (res : Result) : (s.finish st res).seq = s.seq := rfl
@[simp] theorem finish_resp (s : State) (st : Status) (res : Result) : (s.finish st res).resp = some ⟨st, res⟩ := rfl
@[simp] theorem finish_viewValid (s : State) (st : Status) (res : Result) : (s.finish st res).viewValid = s.viewValid := rfl
@[simp] theorem finish_issued (s : State) (st : Status) (res : Result) : (s.finish st res).issued = s.issued := rfl

/-! ### Updates of FRM -/

@[simp] theorem discard_nalType (f : FrameRegs) : (f.discard).nalType = f.nalType := rfl
@[simp] theorem discard_ssrc (f : FrameRegs) : (f.discard).ssrc = f.ssrc := rfl
@[simp] theorem discard_ts (f : FrameRegs) : (f.discard).ts = f.ts := rfl
@[simp] theorem discard_len (f : FrameRegs) : (f.discard).len = 0 := rfl
@[simp] theorem discard_parts (f : FrameRegs) : (f.discard).parts = [] := rfl

@[simp] theorem withNalType_nalType (f : FrameRegs) (t : BitVec 5) : (f.withNalType t).nalType = t := rfl
@[simp] theorem withNalType_ssrc (f : FrameRegs) (t : BitVec 5) : (f.withNalType t).ssrc = f.ssrc := rfl
@[simp] theorem withNalType_ts (f : FrameRegs) (t : BitVec 5) : (f.withNalType t).ts = f.ts := rfl
@[simp] theorem withNalType_len (f : FrameRegs) (t : BitVec 5) : (f.withNalType t).len = f.len := rfl
@[simp] theorem withNalType_parts (f : FrameRegs) (t : BitVec 5) : (f.withNalType t).parts = f.parts := rfl

@[simp] theorem push_nalType (f : FrameRegs) (t : BitVec 5) (d : Bytes) (w : Option Bytes) : (f.push t d w).nalType = f.nalType := rfl
@[simp] theorem push_ssrc (f : FrameRegs) (t : BitVec 5) (d : Bytes) (w : Option Bytes) : (f.push t d w).ssrc = f.ssrc := rfl
@[simp] theorem push_ts (f : FrameRegs) (t : BitVec 5) (d : Bytes) (w : Option Bytes) : (f.push t d w).ts = f.ts := rfl
@[simp] theorem push_len (f : FrameRegs) (t : BitVec 5) (d : Bytes) (w : Option Bytes) : (f.push t d w).len = f.len + d.length := rfl
@[simp] theorem push_parts (f : FrameRegs) (t : BitVec 5) (d : Bytes) (w : Option Bytes) : (f.push t d w).parts = f.parts ++ [⟨t, d, w⟩] := rfl

@[simp] theorem frmReset_nalType (ssrc ts : U32) : (frmReset ssrc ts).nalType = 0#5 := rfl
@[simp] theorem frmReset_ssrc (ssrc ts : U32) : (frmReset ssrc ts).ssrc = ssrc := rfl
@[simp] theorem frmReset_ts (ssrc ts : U32) : (frmReset ssrc ts).ts = ts := rfl
@[simp] theorem frmReset_len (ssrc ts : U32) : (frmReset ssrc ts).len = 0 := rfl
@[simp] theorem frmReset_parts (ssrc ts : U32) : (frmReset ssrc ts).parts = [] := rfl

/-! ### The ends of FEED and EMIT -/

@[simp] theorem finishFeed_cfg (s : State) (r : Status × FrameRegs) : (s.finishFeed r).cfg = s.cfg := rfl
@[simp] theorem finishFeed_frm (s : State) (r : Status × FrameRegs) : (s.finishFeed r).frm = r.2 := rfl
@[simp] theorem finishFeed_seq (s : State) (r : Status × FrameRegs) : (s.finishFeed r).seq = s.seq := rfl
@[simp] theorem finishFeed_resp (s : State) (r : Status × FrameRegs) : (s.finishFeed r).resp = some ⟨r.1, feedResult r.1 r.2⟩ := rfl
@[simp] theorem finishFeed_viewValid (s : State) (r : Status × FrameRegs) : (s.finishFeed r).viewValid = (r.1 == .complete) := rfl
@[simp] theorem finishFeed_issued (s : State) (r : Status × FrameRegs) : (s.finishFeed r).issued = s.issued := rfl

@[simp] theorem finishEmit_cfg (s : State) (r : List SinkOutput × U16) : (s.finishEmit r).cfg = s.cfg := rfl
@[simp] theorem finishEmit_frm (s : State) (r : List SinkOutput × U16) : (s.finishEmit r).frm = s.frm := rfl
@[simp] theorem finishEmit_seq (s : State) (r : List SinkOutput × U16) : (s.finishEmit r).seq = r.2 := rfl
@[simp] theorem finishEmit_resp (s : State) (r : List SinkOutput × U16) : (s.finishEmit r).resp = some ⟨.ok, .outputs r.1⟩ := rfl
@[simp] theorem finishEmit_viewValid (s : State) (r : List SinkOutput × U16) : (s.finishEmit r).viewValid = s.viewValid := rfl
@[simp] theorem finishEmit_issued (s : State) (r : List SinkOutput × U16) : (s.finishEmit r).issued = s.issued := rfl

end Sys2Proof.Laws
end

