-- ==== Sys2Proof/Laws/Emit.lean ====
section
/-! SUPPORT. The headers ENCODE and EMIT write (40_rtp_header.md R79), the numbering of EMIT's packets (R80), and the split of
its raw path (42_packetizer.md R96). -/

namespace Sys2Proof.Laws

open Sys2Proof.Machine

@[simp] theorem length_headerBytes (pt : BitVec 7) (m : Bool) (sn : U16) (ts ssrc : U32) :
    (headerBytes pt m sn ts ssrc).length = 12 := rfl

/-- The sequence number stands big-endian in bytes 2 and 3 (R68). -/
theorem be16_headerBytes (pt : BitVec 7) (m : Bool) (sn : U16) (ts ssrc : U32) (payload : Bytes) :
    be16 (headerBytes pt m sn ts ssrc ++ payload) 2 = sn := by
  apply BitVec.eq_of_toNat_eq
  have := sn.isLt
  simp only [be16, headerBytes, u16be, byteAt, extractLsb'_eq_div]
  simp
  omega

/-- `seq + 1` repeated is `seq` plus the count. -/
theorem ofNat_succ_add (seq : U16) (k : Nat) :
    BitVec.ofNat 16 ((seq + 1#16).toNat + k) = BitVec.ofNat 16 (seq.toNat + (k + 1)) := by
  apply BitVec.eq_of_toNat_eq
  simp only [BitVec.toNat_ofNat, BitVec.toNat_add]
  omega

theorem ofNat_toNat_add_zero (seq : U16) : BitVec.ofNat 16 (seq.toNat + 0) = seq := by simp

theorem sinkAll_cons (ty : RtpType) (pt : BitVec 7) (ts ssrc : U32) (m : Bool) (payload : Bytes)
    (rest : List (Bool × Bytes)) (seq : U16) :
    sinkAll ty pt ts ssrc ((m, payload) :: rest) seq =
      (⟨ty, headerBytes pt m seq ts ssrc ++ payload⟩ :: (sinkAll ty pt ts ssrc rest (seq + 1#16)).1,
        (sinkAll ty pt ts ssrc rest (seq + 1#16)).2) := rfl

/-- SEQ advances once per packet (R96). -/
theorem sinkAll_seq (ty : RtpType) (pt : BitVec 7) (ts ssrc : U32) (l : List (Bool × Bytes)) :
    ∀ seq : U16, (sinkAll ty pt ts ssrc l seq).2 = BitVec.ofNat 16 (seq.toNat + l.length) := by
  induction l with
  | nil => intro seq; simp [sinkAll]
  | cons a rest ih =>
    intro seq
    rw [sinkAll_cons, ih, ofNat_succ_add]
    rfl

theorem sinkAll_length (ty : RtpType) (pt : BitVec 7) (ts ssrc : U32) (l : List (Bool × Bytes)) :
    ∀ seq : U16, (sinkAll ty pt ts ssrc l seq).1.length = l.length := by
  induction l with
  | nil => intro seq; rfl
  | cons a rest ih => intro seq; rw [sinkAll_cons]; simp [ih]

/-- Packet `k` has the number SEQ + k and carries payload `k` (R96). -/
theorem sinkAll_getElem? (ty : RtpType) (pt : BitVec 7) (ts ssrc : U32) (l : List (Bool × Bytes)) :
    ∀ (seq : U16) (k : Nat), (sinkAll ty pt ts ssrc l seq).1[k]? =
      (l[k]?).map (fun a => ⟨ty, headerBytes pt a.1 (BitVec.ofNat 16 (seq.toNat + k)) ts ssrc ++ a.2⟩) := by
  induction l with
  | nil => intro seq k; simp [sinkAll]
  | cons a rest ih =>
    intro seq k
    rw [sinkAll_cons]
    cases k with
    | zero => simp
    | succ k => simp only [List.getElem?_cons_succ, ih, ofNat_succ_add]

/-- The number of packets of the raw path: `ceil(n / chunk)` (R96). -/
theorem packets_step {chunk n : Nat} (hc : 0 < chunk) (h : chunk < n) :
    (n + (chunk - 1)) / chunk = (n - chunk + (chunk - 1)) / chunk + 1 := by
  have : n + (chunk - 1) = (n - chunk + (chunk - 1)) + chunk := by omega
  rw [this, Nat.add_div_right _ hc]

theorem packets_last {chunk n : Nat} (h0 : 0 < n) (h : n ≤ chunk) : (n + (chunk - 1)) / chunk = 1 := by
  apply Nat.div_eq_of_lt_le <;> omega

/-- The split of the raw path, packet by packet (R96). -/
theorem rawSplit_eq {chunk : Nat} (hc : 0 < chunk) (fuel : Nat) :
    ∀ d : Bytes, d ≠ [] → d.length ≤ fuel →
      rawSplit chunk fuel d = (List.range ((d.length + (chunk - 1)) / chunk)).map (fun k =>
        (decide (k + 1 = (d.length + (chunk - 1)) / chunk), (d.drop (k * chunk)).take chunk)) := by
  induction fuel with
  | zero =>
    intro d hd hl
    exact absurd (List.length_eq_zero_iff.mp (by omega)) hd
  | succ n ih =>
    intro d hd hl
    unfold rawSplit
    split
    · rename_i hlt
      have hne : d.drop chunk ≠ [] := by
        intro h0
        have := congrArg List.length h0
        simp at this
        omega
      rw [ih _ hne (by simp; omega), List.length_drop, packets_step hc hlt, List.range_succ_eq_map, List.map_cons,
        List.map_map]
      have hpos : 0 < (d.length - chunk + (chunk - 1)) / chunk := Nat.div_pos (by omega) hc
      congr 1
      · simp; omega
      · apply List.map_congr_left
        intro k _
        simp only [Function.comp, Nat.succ_eq_add_one, List.drop_drop, Nat.add_right_cancel_iff, Prod.mk.injEq, true_and]
        congr 2
        rw [Nat.add_mul]
        omega
    · rename_i hge
      have h0 : 0 < d.length := List.length_pos_iff.mpr hd
      rw [packets_last h0 (by omega)]
      simp
      omega

/-- The raw path's payloads are the data in order, none empty, none longer than a chunk (R96). -/
theorem rawSplit_facts {chunk : Nat} (hc : 0 < chunk) (fuel : Nat) : ∀ d : Bytes, d ≠ [] → d.length ≤ fuel →
    (rawSplit chunk fuel d).flatMap Prod.snd = d ∧
      ∀ a ∈ rawSplit chunk fuel d, 0 < a.2.length ∧ a.2.length ≤ chunk := by
  induction fuel with
  | zero => intro d hd hl; exact absurd (List.length_eq_zero_iff.mp (by omega)) hd
  | succ n ih =>
    intro d hd hl
    unfold rawSplit
    have h0 : 0 < d.length := List.length_pos_iff.mpr hd
    split
    · rename_i hlt
      have hne : d.drop chunk ≠ [] := by
        intro h0
        have := congrArg List.length h0
        simp at this
        omega
      obtain ⟨h1, h2⟩ := ih _ hne (by simp; omega)
      refine ⟨by simp [h1], ?_⟩
      intro a ha
      rcases List.mem_cons.mp ha with rfl | ha
      · simp; omega
      · exact h2 a ha
    · refine ⟨by simp, ?_⟩
      intro a ha
      rw [List.mem_singleton] at ha
      subst ha
      exact ⟨h0, by simp only; omega⟩

/-- The packets carry their payloads after 12 header bytes, each with the tag (R96, R97). -/
theorem sinkAll_facts (ty : RtpType) (pt : BitVec 7) (ts ssrc : U32) (l : List (Bool × Bytes)) : ∀ seq : U16,
    (sinkAll ty pt ts ssrc l seq).1.flatMap (fun o => o.bytes.drop 12) = l.flatMap Prod.snd ∧
    ∀ o ∈ (sinkAll ty pt ts ssrc l seq).1, o.ty = ty ∧ ∃ a ∈ l, o.bytes.length = 12 + a.2.length := by
  induction l with
  | nil => intro seq; simp [sinkAll]
  | cons a rest ih =>
    intro seq
    rw [sinkAll_cons]
    obtain ⟨h1, h2⟩ := ih (seq + 1#16)
    refine ⟨?_, ?_⟩
    · simp only [List.flatMap_cons, h1, List.drop_left' (length_headerBytes _ _ _ _ _)]
    · intro o ho
      rcases List.mem_cons.mp ho with rfl | ho
      · exact ⟨rfl, a, by simp, by simp⟩
      · obtain ⟨e, b, hb, hl⟩ := h2 o ho
        exact ⟨e, b, by simp [hb], hl⟩

/-! ### The codec and packetizer commands, what each can do -/

/-- Everything DECODE can answer as a next state (R76). -/
theorem execDecode_next {p : Bytes} {s t : State} (ht : execDecode p s = .next t) :
    p.length ≤ s.cfg.pktMax ∧
    ((parseHeader p = none ∧ t = s.finish .malformedHeader .nothing) ∨
     ∃ h, parseHeader p = some h ∧ t = s.finish .ok (.header h)) := by
  unfold execDecode at ht
  split at ht
  · cases ht
  · rename_i hl
    refine ⟨by omega, ?_⟩
    cases hp : parseHeader p with
    | none => rw [hp] at ht; cases ht; exact .inl ⟨rfl, rfl⟩
    | some h => rw [hp] at ht; cases ht; exact .inr ⟨h, rfl, rfl⟩

/-- Everything EMIT can answer as a next state: the packets of some payloads, none where there is no data or no sink, one
on the pre-formatted path, those of the split on the raw path (R94 to R96). -/
theorem execEmit_next {ty : RtpType} {pre m k : Bool} {pt : BitVec 7} {ts ssrc : U32} {d : Bytes} {s t : State}
    (ht : execEmit ty pre m k pt ts ssrc d s = .next t) :
    d.length ≤ s.cfg.emitMax ∧ ∃ l, t = s.finishEmit (sinkAll ty pt ts ssrc l s.seq) ∧
      (l = [] ∨ l = [(m, d.drop headerLen)] ∨ l = rawSplit s.cfg.chunk d.length d) := by
  unfold execEmit at ht
  split_ifs at ht with h1 h2 h3
  · cases ht; exact ⟨by omega, [], rfl, .inl rfl⟩
  · refine ⟨by omega, ?_⟩
    unfold emitPre at ht
    split_ifs at ht
    · cases ht; exact ⟨[], rfl, .inl rfl⟩
    · cases ht; exact ⟨_, rfl, .inr (.inl rfl)⟩
  · cases ht; exact ⟨by omega, _, rfl, .inr (.inr rfl)⟩

end Sys2Proof.Laws
end

