-- ==== Sys2Proof/Laws/Operands.lean ====
section
/-! SUPPORT. The reads of a packet: slices, the parse of the RTP header and its bounds (40_rtp_header.md R76), the packets
that reach FEED's dispatch (41_h264_deframer.md R81), and the windows (R82). -/

namespace Sys2Proof.Laws

open Sys2Proof.Machine

/-! ### Slices -/

theorem length_slice (p : Bytes) (a b : Nat) (hb : b ≤ p.length) : (slice p a b).length = b - a := by
  simp only [slice, List.length_take, List.length_drop]
  omega

theorem drop_slice (p : Bytes) (a b k : Nat) : (slice p a b).drop k = slice p (a + k) b := by
  simp only [slice, List.drop_take, List.drop_drop]
  congr 1
  omega

theorem slice_all (p : Bytes) : slice p 0 p.length = p := by
  simp [slice]

theorem getElem?_slice (p : Bytes) (a b k : Nat) :
    (slice p a b)[k]? = if k < b - a then p[a + k]? else none := by
  simp only [slice, List.getElem?_take, List.getElem?_drop]

/-! ### The parse -/

theorem parseHeader_some {p : Bytes} {h : HeaderInfo} (hp : parseHeader p = some h) :
    headerFits p = true ∧ h = headerInfo p := by
  unfold parseHeader at hp
  split at hp
  · rename_i hf
    exact ⟨hf, by injection hp with hp; exact hp.symm⟩
  · cases hp

theorem headerFits_iff (p : Bytes) :
    headerFits p = true ↔ 12 ≤ p.length ∧ csrcEnd p ≤ p.length ∧ (hasExtension p = true → csrcEnd p + 4 ≤ p.length) ∧
      hdrLen p ≤ p.length ∧ hdrLen p + (padLen p).toNat ≤ p.length := by
  simp only [headerFits, Bool.and_eq_true, decide_eq_true_eq, Bool.or_eq_true, Bool.not_eq_true', headerLen]
  cases hasExtension p <;> simp [and_assoc]

theorem headerLen_le_hdrLen (p : Bytes) : 12 ≤ hdrLen p := by
  unfold hdrLen csrcEnd headerLen
  split <;> omega

/-- The longest header (R67). -/
theorem hdrLen_le (p : Bytes) : hdrLen p ≤ 262216 := by
  have := (csrcCount (byteAt p 0)).isLt
  have := (extLength p).isLt
  simp only [hdrLen, csrcEnd, headerLen]
  split <;> omega

/-- The offsets of an accepted packet (R67): `12 ≤ ps ≤ pe ≤ |P|`. -/
theorem parseHeader_bounds {p : Bytes} {h : HeaderInfo} (hp : parseHeader p = some h) :
    12 ≤ h.ps ∧ h.ps ≤ h.pe ∧ h.pe ≤ p.length := by
  obtain ⟨hf, rfl⟩ := parseHeader_some hp
  have hb := (headerFits_iff p).mp hf
  have := headerLen_le_hdrLen p
  simp only [headerInfo]
  omega

theorem parseHeader_payload {p : Bytes} {h : HeaderInfo} (hp : parseHeader p = some h) :
    h.payload = slice p h.ps h.pe := by
  obtain ⟨_, rfl⟩ := parseHeader_some hp
  rfl

theorem parseHeader_length {p : Bytes} {h : HeaderInfo} (hp : parseHeader p = some h) : 12 ≤ p.length := by
  have := parseHeader_bounds hp
  omega

theorem feedHeader_some {p : Bytes} {h : HeaderInfo} :
    feedHeader p = some h ↔ parseHeader p = some h ∧ h.ps < h.pe := by
  unfold feedHeader
  cases parseHeader p with
  | none => simp
  | some h' =>
    simp only [Option.some.injEq]
    split
    · constructor
      · intro hh; cases hh
      · rintro ⟨rfl, hlt⟩; omega
    · constructor
      · intro hh
        cases hh
        exact ⟨rfl, by omega⟩
      · rintro ⟨rfl, _⟩; rfl

/-! ### Windows (R82) -/

theorem length_window {p : Bytes} {h : HeaderInfo} (hp : parseHeader p = some h) {off : Nat} (h1 : h.ps ≤ off)
    (h2 : off ≤ h.pe) : (window p h off).length = 12 + (h.pe - off) := by
  have hb := parseHeader_bounds hp
  rw [window, length_slice _ _ _ hb.2.2]
  simp only [headerLen]
  omega

theorem drop_window {p : Bytes} {h : HeaderInfo} (hp : parseHeader p = some h) {off : Nat} (h1 : h.ps ≤ off) :
    (window p h off).drop 12 = slice p off h.pe := by
  have hb := parseHeader_bounds hp
  rw [window, drop_slice]
  simp only [headerLen]
  congr 1
  omega

end Sys2Proof.Laws
end

