-- ==== Sys2Proof/Laws/Feed.lean ====
section
/-! SUPPORT. What FEED can do, said once: FrmAppend (41_h264_deframer.md R84), the entry (R81), and the facts every case
has: its statuses, what each error leaves (60_exceptions.md R100), and that the memory keeps its form. -/

namespace Sys2Proof.Laws

open Sys2Proof.Machine

/-! ### FrmAppend (R84) -/

theorem hasRoom_iff (c : Config) (d : Bytes) (f : FrameRegs) :
    f.hasRoom c d = true ↔ f.len + d.length ≤ c.frameBufMax ∧ c.partsFit (f.parts.length + 1) = true := by
  simp [FrameRegs.hasRoom]

theorem frmAppend_room {c : Config} {d : Bytes} {f : FrameRegs} (h : f.hasRoom c d = true) (t : BitVec 5)
    (w : Option Bytes) (next : FrameRegs → Status × FrameRegs) :
    frmAppend c t d w f next = next (f.push t d w) := by
  simp [frmAppend, h]

theorem frmAppend_full {c : Config} {d : Bytes} {f : FrameRegs} (h : f.hasRoom c d = false) (t : BitVec 5)
    (w : Option Bytes) (next : FrameRegs → Status × FrameRegs) :
    frmAppend c t d w f next = (.frameOverflow, f.discard) := by
  simp [frmAppend, h]

/-! ### The memory's form (R24, R38, R82) -/

theorem memory_wf_iff (c : Config) (f : FrameRegs) :
    Memory.wf c f = true ↔ f.len = dataLen f.parts ∧ f.len ≤ c.frameBufMax ∧ c.partsFit f.parts.length = true ∧
      ∀ part ∈ f.parts, windowFits c part = true := by
  simp [Memory.wf, and_assoc]

theorem partsFit_zero (c : Config) : c.partsFit 0 = true := by
  unfold Config.partsFit
  split <;> simp

theorem partsFit_of_le {c : Config} {m n : Nat} (h : m ≤ n) (hn : c.partsFit n = true) : c.partsFit m = true := by
  unfold Config.partsFit at *
  split <;> simp_all
  omega

theorem partsFit_two {c : Config} (hv : c.valid = true) : c.partsFit 2 = true := by
  unfold Config.valid at hv
  unfold Config.partsFit
  split <;> simp_all

theorem memory_wf_empty (c : Config) {f : FrameRegs} (h1 : f.parts = []) (h2 : f.len = 0) : Memory.wf c f = true := by
  simp [memory_wf_iff, h1, h2, dataLen, partsFit_zero]

theorem memory_wf_discard (c : Config) (f : FrameRegs) : Memory.wf c f.discard = true :=
  memory_wf_empty c rfl rfl

theorem memory_wf_withNalType (c : Config) (f : FrameRegs) (t : BitVec 5) :
    Memory.wf c (f.withNalType t) = Memory.wf c f := rfl

theorem memory_wf_push {c : Config} {f : FrameRegs} {t : BitVec 5} {d : Bytes} {w : Option Bytes}
    (hf : Memory.wf c f = true) (hr : f.hasRoom c d = true) (hw : windowFits c ⟨t, d, w⟩ = true) :
    Memory.wf c (f.push t d w) = true := by
  rw [memory_wf_iff] at hf ⊢
  rw [hasRoom_iff] at hr
  obtain ⟨h1, _, _, h4⟩ := hf
  refine ⟨?_, hr.1, ?_, ?_⟩
  · simp [h1, dataLen]
  · simpa using hr.2
  · intro part hp
    simp only [push_parts, List.mem_append, List.mem_singleton] at hp
    rcases hp with hp | rfl
    · exact h4 part hp
    · exact hw

theorem windowFits_none (c : Config) (t : BitVec 5) (d : Bytes) : windowFits c ⟨t, d, none⟩ = true := rfl

theorem windowFits_window {c : Config} {p : Bytes} {h : HeaderInfo} (hp : parseHeader p = some h)
    (hl : p.length ≤ c.pktMax) {off : Nat} (h1 : h.ps ≤ off) (h2 : off ≤ h.pe) (t : BitVec 5) :
    windowFits c ⟨t, slice p off h.pe, some (window p h off)⟩ = true := by
  have hb := parseHeader_bounds hp
  simp only [windowFits, length_window hp h1 h2, headerLen, drop_window hp h1, Bool.and_eq_true, decide_eq_true_eq,
    beq_self_eq_true, and_true]
  omega

/-- The bytes of the buffer are as many as `len` counts. -/
theorem length_buffer {c : Config} {f : FrameRegs} (hf : Memory.wf c f = true) : f.buffer.length = f.len := by
  rw [(memory_wf_iff c f).mp hf |>.1]
  simp [FrameRegs.buffer, dataLen, List.length_flatMap]

/-! ### The facts of a case -/

/-- What a case of FEED may answer from the frame `f`: its status, and the frame each status leaves (R100), `ovf` being
the one an overflow leaves, none where the case cannot overflow. -/
structure CaseFacts (c : Config) (p : Bytes) (h : HeaderInfo) (f : FrameRegs) (ovf : Option FrameRegs)
    (r : Status × FrameRegs) : Prop where
  status : r.1 ∈ [Status.complete, .pending, .malformedPacket, .malformedAggregation, .unsupportedNaluType,
    .frameOverflow]
  kept : r.1 = .malformedPacket ∨ r.1 = .unsupportedNaluType → r.2 = f
  aggregation : r.1 = .malformedAggregation →
    r.2 = { nalType := 24#5, ssrc := h.ssrc, ts := h.ts, len := 0, parts := [] }
  overflow : r.1 = .frameOverflow → ovf = some r.2
  wf : parseHeader p = some h → h.ps < h.pe → p.length ≤ c.pktMax → Memory.wf c f = true → Memory.wf c r.2 = true

/-- A case that keeps the frame: unsupported types, and a FU-A without its FU header (R91, R86). -/
theorem kept_facts (c : Config) (p : Bytes) (h : HeaderInfo) (f : FrameRegs) (ovf : Option FrameRegs) {st : Status}
    (hst : st = .malformedPacket ∨ st = .unsupportedNaluType) : CaseFacts c p h f ovf (st, f) := by
  rcases hst with rfl | rfl <;> exact ⟨by simp, by simp, by simp, by simp, fun _ _ _ hf => hf⟩

theorem feedUnsupported_facts (c : Config) (p : Bytes) (h : HeaderInfo) (f : FrameRegs) (ovf : Option FrameRegs) :
    CaseFacts c p h f ovf (feedUnsupported p h f) :=
  kept_facts c p h f ovf (.inr rfl)

/-- An overflow of `g` (R84). -/
theorem overflow_facts (c : Config) (p : Bytes) (h : HeaderInfo) (f g : FrameRegs) :
    CaseFacts c p h f (some g.discard) (.frameOverflow, g.discard) :=
  ⟨by simp, by simp, by simp, by simp, fun _ _ _ _ => memory_wf_discard c _⟩

theorem feedSingle_facts (c : Config) (p : Bytes) (h : HeaderInfo) (f : FrameRegs) :
    CaseFacts c p h f (some ((frmReset h.ssrc h.ts).withNalType (nalTypeField (byteAt p h.ps)))) (feedSingle c p h f) := by
  unfold feedSingle
  cases hr : ((frmReset h.ssrc h.ts).withNalType (nalTypeField (byteAt p h.ps))).hasRoom c (slice p h.ps h.pe) with
  | true =>
    rw [frmAppend_room hr]
    refine ⟨by simp, by simp, by simp, by simp, fun hp hlt hl _ => ?_⟩
    exact memory_wf_push (memory_wf_empty c rfl rfl) hr (windowFits_window hp hl (Nat.le_refl _) (Nat.le_of_lt hlt) _)
  | false =>
    rw [frmAppend_full hr]
    exact overflow_facts c p h f ((frmReset h.ssrc h.ts).withNalType _)

/-- A fragment step that starts from `g`. -/
theorem fuaFragment_facts (c : Config) (p : Bytes) (h : HeaderInfo) (f g : FrameRegs) (fu : Byte) (st : Status)
    (hst : st = .complete ∨ st = .pending) (h2 : 2 ≤ h.pe - h.ps)
    (hw : Memory.wf c f = true → Memory.wf c g = true) :
    CaseFacts c p h f (some g.discard) (fuaFragment c p h fu st g) := by
  unfold fuaFragment
  cases hr : g.hasRoom c (slice p (h.ps + 2) h.pe) with
  | true =>
    rw [frmAppend_room hr]
    refine ⟨by rcases hst with rfl | rfl <;> simp, by rcases hst with rfl | rfl <;> simp,
      by rcases hst with rfl | rfl <;> simp, by rcases hst with rfl | rfl <;> simp, fun hp _ hl hf => ?_⟩
    exact memory_wf_push (hw hf) hr (windowFits_window hp hl (by omega) (by omega) _)
  | false =>
    rw [frmAppend_full hr]
    exact overflow_facts c p h f g

theorem fuaContinue_facts (c : Config) (p : Bytes) (h : HeaderInfo) (f : FrameRegs) (st : Status)
    (hst : st = .complete ∨ st = .pending) :
    CaseFacts c p h f (some f.discard) (fuaHeader p h f (fun _ fu => fuaFragment c p h fu st f)) := by
  unfold fuaHeader
  split
  · exact kept_facts c p h f _ (.inl rfl)
  · exact fuaFragment_facts c p h f f _ st hst (by omega) id

theorem fuaBegin_facts (c : Config) (p : Bytes) (h : HeaderInfo) (f : FrameRegs) (st : Status)
    (hst : st = .complete ∨ st = .pending) :
    CaseFacts c p h f (some ((frmReset h.ssrc h.ts).withNalType (nalTypeField (byteAt p (h.ps + 1)))))
      (fuaHeader p h f (fun ind fu => fuaStartStep c h ind fu (fuaFragment c p h fu st))) := by
  unfold fuaHeader
  split
  · exact kept_facts c p h f _ (.inl rfl)
  · simp only [fuaStartStep]
    cases hr : ((frmReset h.ssrc h.ts).withNalType (nalTypeField (byteAt p (h.ps + 1)))).hasRoom c
        [rebuiltHeader (byteAt p h.ps) (byteAt p (h.ps + 1))] with
    | true =>
      rw [frmAppend_room hr]
      exact fuaFragment_facts c p h f (FrameRegs.push _ _ _ _) _ st hst (by omega)
        (fun _ => memory_wf_push (memory_wf_empty c rfl rfl) hr (windowFits_none c _ _))
    | false =>
      rw [frmAppend_full hr]
      exact overflow_facts c p h f ((frmReset h.ssrc h.ts).withNalType _)

/-- What the STAP-A loop answers from a frame `g` that holds this packet's scalars. -/
theorem stapaLoop_facts (c : Config) (p : Bytes) (h : HeaderInfo) (f : FrameRegs) (fuel : Nat) :
    ∀ (rest : Bytes) (g : FrameRegs), g.discard = (frmReset h.ssrc h.ts).withNalType 24#5 → Memory.wf c g = true →
      CaseFacts c p h f (some ((frmReset h.ssrc h.ts).withNalType 24#5)) (stapaLoop c fuel rest g) := by
  induction fuel with
  | zero =>
    intro rest g _ hw
    exact ⟨by simp [stapaLoop], by simp [stapaLoop], by simp [stapaLoop], by simp [stapaLoop], fun _ _ _ _ => hw⟩
  | succ n ih =>
    intro rest g hg hw
    unfold stapaLoop
    split
    · exact ⟨by simp, by simp, by simp, by simp, fun _ _ _ _ => hw⟩
    · split
      · exact ⟨by simp, by simp, fun _ => hg, by simp, fun _ _ _ _ => memory_wf_discard c _⟩
      · cases hr : g.hasRoom c (slice rest 2 (2 + (be16 rest 0).toNat)) with
        | true =>
          rw [frmAppend_room hr]
          exact ih _ _ hg (memory_wf_push hw hr (windowFits_none c _ _))
        | false =>
          rw [frmAppend_full hr]
          exact hg ▸ overflow_facts c p h f g

theorem feedStapa_facts (c : Config) (p : Bytes) (h : HeaderInfo) (f : FrameRegs) :
    CaseFacts c p h f (some ((frmReset h.ssrc h.ts).withNalType 24#5)) (feedStapa c p h f) :=
  stapaLoop_facts c p h f _ _ _ rfl (memory_wf_empty c rfl rfl)

/-! ### FEED as a command (R81, R31) -/

/-- The case of an instruction of the FEED command. -/
def feedBody (c : Config) (p : Bytes) (i : Instr) : HeaderInfo → FrameRegs → Status × FrameRegs :=
  match i with
  | .cmdReset _ => feedUnsupported p
  | .cmdDecode _ => feedUnsupported p
  | .cmdEncode _ _ _ _ => feedUnsupported p
  | .cmdFeed _ => feedDispatch c p
  | .cmdEmit _ _ _ _ _ _ _ _ => feedUnsupported p
  | .illegalOp5 _ => feedUnsupported p
  | .illegalOp6 _ => feedUnsupported p
  | .illegalOp7 _ => feedUnsupported p
  | .illegal _ => feedUnsupported p
  | .feedUnsupportedT0 _ => feedUnsupported p
  | .feedSingleT1 _ => feedSingle c p
  | .feedSingleT2to3 _ => feedSingle c p
  | .feedSingleT4to7 _ => feedSingle c p
  | .feedSingleT8to15 _ => feedSingle c p
  | .feedSingleT16to23 _ => feedSingle c p
  | .feedStapa _ => feedStapa c p
  | .feedUnsupportedT25 _ => feedUnsupported p
  | .feedUnsupportedT26to27 _ => feedUnsupported p
  | .feedFuaMiddle _ => fun h f => fuaHeader p h f (fun _ fu => fuaFragment c p h fu .pending f)
  | .feedFuaEnd _ => fun h f => fuaHeader p h f (fun _ fu => fuaFragment c p h fu .complete f)
  | .feedFuaStart _ => fun h f =>
    fuaHeader p h f (fun ind fu => fuaStartStep c h ind fu (fuaFragment c p h fu .pending))
  | .feedFuaSingle _ => fun h f =>
    fuaHeader p h f (fun ind fu => fuaStartStep c h ind fu (fuaFragment c p h fu .complete))
  | .feedUnsupportedT29 _ => feedUnsupported p
  | .feedUnsupportedT30to31 _ => feedUnsupported p

theorem exec_feed {i : Instr} {p : Bytes} (hi : feedPacket i = some p) (s : State) :
    exec i s = feedCommandWith p s (feedBody s.cfg p i) := by
  cases i <;> first
    | cases hi; done
    | (cases hi; rfl)

theorem feedEntry_header {p : Bytes} {h : HeaderInfo} (hh : feedHeader p = some h) (f : FrameRegs)
    (body : HeaderInfo → Status × FrameRegs) : feedEntry p f body = body h := by
  obtain ⟨hp, hlt⟩ := feedHeader_some.mp hh
  have := parseHeader_length hp
  rw [feedEntry, if_neg (by simp only [headerLen]; omega), hp]
  simp only
  rw [if_neg (by omega)]

/-- A packet that does not reach the dispatch: `MalformedPacket` or `MalformedHeader`, FRM unchanged (R81). -/
theorem feedEntry_noHeader {p : Bytes} (hh : feedHeader p = none) (f : FrameRegs)
    (body : HeaderInfo → Status × FrameRegs) :
    feedEntry p f body = (.malformedPacket, f) ∨ feedEntry p f body = (.malformedHeader, f) := by
  unfold feedEntry
  unfold feedHeader at hh
  split
  · exact .inl rfl
  · cases hp : parseHeader p with
    | none => exact .inr rfl
    | some h =>
      rw [hp] at hh
      simp only at hh ⊢
      split at hh
      · rename_i h1
        rw [if_pos h1]
        exact .inl rfl
      · cases hh

theorem feedCommandWith_header {p : Bytes} {h : HeaderInfo} {s : State} (hl : p.length ≤ s.cfg.pktMax)
    (hp : parseHeader p = some h) (hlt : h.ps < h.pe) (body : HeaderInfo → FrameRegs → Status × FrameRegs) :
    feedCommandWith p s body = .next (s.finishFeed (body h s.frm)) := by
  rw [feedCommandWith, if_neg (by omega), feedEntry_header (feedHeader_some.mpr ⟨hp, hlt⟩)]

/-- Everything a FEED can answer as a next state: an entry failure with FRM unchanged, or its case. -/
theorem feedCommandWith_next {p : Bytes} {s t : State} {body : HeaderInfo → FrameRegs → Status × FrameRegs}
    (ht : feedCommandWith p s body = .next t) :
    p.length ≤ s.cfg.pktMax ∧
    ((feedHeader p = none ∧ (t = s.finishFeed (.malformedPacket, s.frm) ∨ t = s.finishFeed (.malformedHeader, s.frm))) ∨
     ∃ h, parseHeader p = some h ∧ h.ps < h.pe ∧ t = s.finishFeed (body h s.frm)) := by
  unfold feedCommandWith at ht
  split at ht
  · cases ht
  · rename_i hl
    injection ht with ht
    refine ⟨by omega, ?_⟩
    cases hh : feedHeader p with
    | none =>
      left
      refine ⟨rfl, ?_⟩
      rcases feedEntry_noHeader hh s.frm (fun h => body h s.frm) with he | he
      · left; rw [← ht, he]
      · right; rw [← ht, he]
    | some h =>
      right
      obtain ⟨hp, hlt⟩ := feedHeader_some.mp hh
      exact ⟨h, hp, hlt, by rw [← ht, feedEntry_header hh]⟩

/-- FEED's result is the frame exactly with COMPLETE (R31). -/
theorem feedResult_of_ne {st : Status} (h : st ≠ .complete) (f : FrameRegs) : feedResult st f = .nothing := by
  cases st <;> first | rfl | exact absurd rfl h

/-! ### The rows of the dispatch (R74, R75) -/

theorem feedPacket_feedInstr (p : Bytes) : feedPacket (feedInstr p) = some p := by
  rw [feedInstr_eq]
  cases feedHeader p with
  | none => rfl
  | some h =>
    have ht : (byteAt p h.ps).toNat % 32 < 32 := Nat.mod_lt _ (by decide)
    simp only []
    generalize (byteAt p h.ps).toNat % 32 = t at *
    interval_cases t
    all_goals first
      | rfl
      | skip
    by_cases h2 : h.pe - h.ps < 2
    · simp [h2, feedPacket]
    · cases fuStart (byteAt p (h.ps + 1)) <;> cases fuEnd (byteAt p (h.ps + 1)) <;> simp [h2, feedPacket]

/-- A well-formed row of the dispatch is the row its packet selects. -/
theorem feedInstr_eq_of_wf {i : Instr} {p : Bytes} (hi : feedPacket i = some p) (hw : i.wellFormed = true) :
    feedInstr p = i := by
  rw [feedInstr_eq]
  cases i <;> first
    | (cases hi; done)
    | skip
  all_goals
    simp only [feedPacket, Option.some.injEq] at hi
    subst hi
    cases hf : feedHeader _ with
    | none => simp_all [Instr.wellFormed, selectsNoRow, nalTypeIn, fuaForm]
    | some h =>
      simp only [Instr.wellFormed, selectsNoRow, nalTypeIn, fuaForm, hf, nalTypeField_toNat, Bool.and_eq_true,
        decide_eq_true_eq, beq_iff_eq] at hw
      rename_i p
      have ht : (byteAt p h.ps).toNat % 32 < 32 := Nat.mod_lt _ (by decide)
      simp only []
      generalize hte : (byteAt p h.ps).toNat % 32 = t at *
      clear hf
      first
        | (obtain ⟨h1, h2⟩ := hw; interval_cases t <;> rfl)
        | (obtain ⟨⟨⟨rfl, h2⟩, hs⟩, he⟩ := hw; simp [hs, he]; omega)
        | (obtain ⟨rfl, h2⟩ := hw; simp [h2])

/-- The dispatch of R81 does what the selected row does. -/
theorem feedDispatch_row {p : Bytes} {h : HeaderInfo} (c : Config) (hp : parseHeader p = some h) (hlt : h.ps < h.pe)
    (f : FrameRegs) : feedDispatch c p h f = feedBody c p (feedInstr p) h f := by
  have ht : (byteAt p h.ps).toNat % 32 < 32 := Nat.mod_lt _ (by decide)
  have e := feedInstr_eq p
  rw [feedHeader_some.mpr ⟨hp, hlt⟩] at e
  simp only at e
  by_cases hs : (byteAt p h.ps).toNat % 32 = 28 ∧ h.pe - h.ps < 2
  · rw [e]
    simp [hs, feedBody]
  · rw [e]
    simp only [feedDispatch, nalTypeField_toNat]
    generalize (byteAt p h.ps).toNat % 32 = t at *
    interval_cases t
    all_goals first
      | rfl
      | skip
    have h2 : ¬ h.pe - h.ps < 2 := by omega
    cases hs : fuStart (byteAt p (h.ps + 1)) <;> cases he : fuEnd (byteAt p (h.ps + 1)) <;>
      simp [h2, hs, he, feedBody, feedFua, fuaHeader]

/-- The frame a row of the dispatch leaves when it overflows: what it had written before the failing append, without its
parts (R84, R100). A continuation writes no field. None for what cannot overflow. -/
def overflowLeaves (p : Bytes) (h : HeaderInfo) (f : FrameRegs) (row : Instr) : Option FrameRegs :=
  match row with
  | .cmdReset _ => none
  | .cmdDecode _ => none
  | .cmdEncode _ _ _ _ => none
  | .cmdFeed _ => none
  | .cmdEmit _ _ _ _ _ _ _ _ => none
  | .illegalOp5 _ => none
  | .illegalOp6 _ => none
  | .illegalOp7 _ => none
  | .illegal _ => none
  | .feedUnsupportedT0 _ => none
  | .feedSingleT1 _ => some ((frmReset h.ssrc h.ts).withNalType (nalTypeField (byteAt p h.ps)))
  | .feedSingleT2to3 _ => some ((frmReset h.ssrc h.ts).withNalType (nalTypeField (byteAt p h.ps)))
  | .feedSingleT4to7 _ => some ((frmReset h.ssrc h.ts).withNalType (nalTypeField (byteAt p h.ps)))
  | .feedSingleT8to15 _ => some ((frmReset h.ssrc h.ts).withNalType (nalTypeField (byteAt p h.ps)))
  | .feedSingleT16to23 _ => some ((frmReset h.ssrc h.ts).withNalType (nalTypeField (byteAt p h.ps)))
  | .feedStapa _ => some ((frmReset h.ssrc h.ts).withNalType 24#5)
  | .feedUnsupportedT25 _ => none
  | .feedUnsupportedT26to27 _ => none
  | .feedFuaMiddle _ => some f.discard
  | .feedFuaEnd _ => some f.discard
  | .feedFuaStart _ => some ((frmReset h.ssrc h.ts).withNalType (nalTypeField (byteAt p (h.ps + 1))))
  | .feedFuaSingle _ => some ((frmReset h.ssrc h.ts).withNalType (nalTypeField (byteAt p (h.ps + 1))))
  | .feedUnsupportedT29 _ => none
  | .feedUnsupportedT30to31 _ => none

/-- The row an instruction of the FEED command runs is of that command, with the same packet. -/
theorem feedPacket_feedRow {p : Bytes} {i : Instr} (hi : feedPacket i = some p) : feedPacket (feedRow p i) = some p := by
  unfold feedRow
  split
  · exact feedPacket_feedInstr p
  · exact hi

theorem feedRow_cmdFeed (p : Bytes) : feedRow p (.cmdFeed p) = feedInstr p := by simp [feedRow]

theorem feedRow_of_ne {p : Bytes} {i : Instr} (h : i ≠ .cmdFeed p) : feedRow p i = i := by simp [feedRow, h]

/-- The facts of every row of the dispatch. -/
theorem row_facts (c : Config) {p : Bytes} {i : Instr} (hi : feedPacket i = some p) (hn : i ≠ .cmdFeed p)
    (h : HeaderInfo) (f : FrameRegs) : CaseFacts c p h f (overflowLeaves p h f i) (feedBody c p i h f) := by
  cases i <;> first
    | (cases hi; done)
    | exact feedUnsupported_facts c p h f _
    | exact feedSingle_facts c p h f
    | exact feedStapa_facts c p h f
    | exact fuaContinue_facts c p h f _ (.inl rfl)
    | exact fuaContinue_facts c p h f _ (.inr rfl)
    | exact fuaBegin_facts c p h f _ (.inl rfl)
    | exact fuaBegin_facts c p h f _ (.inr rfl)
    | (cases hi; exact absurd rfl hn)

/-- A FU-A without its FU header is the one packet that reaches the dispatch and selects no row; it keeps the frame. -/
theorem feedDispatch_noRow {p : Bytes} {h : HeaderInfo} (c : Config) (hp : parseHeader p = some h) (hlt : h.ps < h.pe)
    (hr : feedInstr p = .cmdFeed p) (f : FrameRegs) : feedDispatch c p h f = (.malformedPacket, f) := by
  have hw := feedInstr_wellFormed p
  rw [hr] at hw
  simp only [Instr.wellFormed, selectsNoRow, feedHeader_some.mpr ⟨hp, hlt⟩, nalTypeField_toNat, Bool.and_eq_true,
    decide_eq_true_eq] at hw
  simp [feedDispatch, nalTypeField_toNat, hw.1, feedFua, fuaHeader, hw.2]

/-- The facts of every instruction of the FEED command, by the row it runs. -/
theorem feedBody_facts (c : Config) {p : Bytes} {i : Instr} {h : HeaderInfo} (hi : feedPacket i = some p)
    (hp : parseHeader p = some h) (hlt : h.ps < h.pe) (f : FrameRegs) :
    CaseFacts c p h f (overflowLeaves p h f (feedRow p i)) (feedBody c p i h f) := by
  by_cases hn : i = .cmdFeed p
  · subst hn
    rw [feedRow_cmdFeed]
    by_cases hr : feedInstr p = .cmdFeed p
    · show CaseFacts c p h f _ (feedDispatch c p h f)
      rw [feedDispatch_noRow c hp hlt hr]
      exact kept_facts c p h f _ (.inl rfl)
    · show CaseFacts c p h f _ (feedDispatch c p h f)
      rw [feedDispatch_row c hp hlt]
      exact row_facts c (feedPacket_feedInstr p) hr h f
  · rw [feedRow_of_ne hn]
    exact row_facts c hi hn h f

/-- The rebuilt NAL header as arithmetic (R71). -/
theorem rebuiltHeader_eq (ind fu : Byte) : rebuiltHeader ind fu = BitVec.ofNat 8 (ind.toNat / 32 * 32 + fu.toNat % 32) := by
  have h1 : ∀ a : Byte, a &&& 0xE0#8 = BitVec.ofNat 8 (a.toNat / 32 * 32) := by decide
  have h2 : ∀ a : Byte, a &&& 0x1F#8 = BitVec.ofNat 8 (a.toNat % 32) := by decide
  apply BitVec.eq_of_toNat_eq
  rw [rebuiltHeader, h1, h2, BitVec.toNat_or, BitVec.toNat_ofNat, BitVec.toNat_ofNat, BitVec.toNat_ofNat]
  have := ind.isLt
  rw [Nat.mod_eq_of_lt (by omega : ind.toNat / 32 * 32 < 2 ^ 8), Nat.mod_eq_of_lt (by omega : fu.toNat % 32 < 2 ^ 8),
    Nat.mul_comm, show (32 : Nat) = 2 ^ 5 from rfl, ← Nat.two_pow_add_eq_or_of_lt (Nat.mod_lt _ (by decide))]
  omega

/-! ### The units of a STAP-A payload (R90) -/

/-- The frame after the units of a STAP-A payload have been appended (R90). -/
def pushUnits (units : List Bytes) (f : FrameRegs) : FrameRegs :=
  { f with
    len := f.len + (units.map List.length).sum,
    parts := f.parts ++ units.map (fun u => ⟨unitType u, u, none⟩) }

/-- What one unit at the front of a payload reads as (R72). -/
theorem stapaUnit_append (u tail : Bytes) (h : u.length < 2 ^ 16) :
    (be16 (stapaUnit u ++ tail) 0).toNat = u.length ∧ (stapaUnit u ++ tail).length = 2 + u.length + tail.length ∧
      slice (stapaUnit u ++ tail) 2 (2 + u.length) = u ∧ (stapaUnit u ++ tail).drop (2 + u.length) = tail := by
  have e : stapaUnit u ++ tail = (u16be (BitVec.ofNat 16 u.length)) ++ (u ++ tail) := by simp [stapaUnit]
  refine ⟨?_, ?_, ?_, ?_⟩
  · rw [e]
    simp only [be16, u16be, byteAt, extractLsb'_eq_div]
    simp
    omega
  · simp [stapaUnit, u16be]; omega
  · rw [e]; simp [slice, u16be]
  · rw [e, ← List.append_assoc]; exact List.drop_left' (by simp [u16be]; omega)

/-- The loop over whole units that fit appends them in order (R90). -/
theorem stapaLoop_units (c : Config) (rest : Bytes) (units : List Bytes) : ∀ (f : FrameRegs) (fuel : Nat),
    (∀ u ∈ units, u.length < 2 ^ 16) → f.len + (units.map List.length).sum ≤ c.frameBufMax →
    c.partsFit (f.parts.length + units.length) = true →
    stapaLoop c (fuel + units.length) (units.flatMap stapaUnit ++ rest) f = stapaLoop c fuel rest (pushUnits units f) := by
  induction units with
  | nil => intro f fuel _ _ _; simp [pushUnits]
  | cons u us ih =>
    intro f fuel hu hl hp
    have hu0 := hu u (by simp)
    obtain ⟨h1, h2, h3, h4⟩ := stapaUnit_append u (us.flatMap stapaUnit ++ rest) hu0
    have hc : (u :: us).flatMap stapaUnit ++ rest = stapaUnit u ++ (us.flatMap stapaUnit ++ rest) := by simp
    simp only [List.map_cons, List.sum_cons, List.length_cons] at hl hp
    have hr : f.hasRoom c u = true := by
      rw [hasRoom_iff]
      exact ⟨by omega, partsFit_of_le (by omega) hp⟩
    rw [hc, List.length_cons, ← Nat.add_assoc, stapaLoop, h1, h2, h3, h4, if_neg (by omega), if_neg (by omega),
      frmAppend_room hr, ih]
    · simp [pushUnits, FrameRegs.push, Nat.add_assoc]
    · intro v hv; exact hu v (by simp [hv])
    · simp only [push_len]; omega
    · simp only [push_parts, List.length_append, List.length_singleton]
      rw [show f.parts.length + 1 + us.length = f.parts.length + (us.length + 1) by omega]
      exact hp

end Sys2Proof.Laws
end

