-- ==== Sys2Proof/Laws/PerInstr.lean ====
section
/-! SUPPORT. Statements per instruction. `EncodedWord`: the command word the encoder writes for a well-formed instruction
is of the opcode-table row the instruction stands for (30_encoding.md R58, R61, R62). -/

namespace Sys2Proof.Laws

/-- The CMD32 row of an instruction (R58, R61); a row of FEED's dispatch is a FEED command (R74, R75). -/
def EncodedWord.row : Instr → CmdForm
  | .cmdReset _ => .reset
  | .cmdDecode _ => .decode
  | .cmdEncode _ _ _ _ => .encode
  | .cmdFeed _ => .feed
  | .cmdEmit _ _ _ _ _ _ _ _ => .emit
  | .illegalOp5 _ => .op5
  | .illegalOp6 _ => .op6
  | .illegalOp7 _ => .op7
  | .illegal _ => .other
  | .feedUnsupportedT0 _ => .feed
  | .feedSingleT1 _ => .feed
  | .feedSingleT2to3 _ => .feed
  | .feedSingleT4to7 _ => .feed
  | .feedSingleT8to15 _ => .feed
  | .feedSingleT16to23 _ => .feed
  | .feedStapa _ => .feed
  | .feedUnsupportedT25 _ => .feed
  | .feedUnsupportedT26to27 _ => .feed
  | .feedFuaMiddle _ => .feed
  | .feedFuaEnd _ => .feed
  | .feedFuaStart _ => .feed
  | .feedFuaSingle _ => .feed
  | .feedUnsupportedT29 _ => .feed
  | .feedUnsupportedT30to31 _ => .feed

/-- The encoded word of a well-formed instruction selects the instruction's row. -/
def EncodedWord.Statement (i : Instr) : Prop :=
  i.wellFormed = true → cmdForm (encode i).cmd = EncodedWord.row i

theorem cmdForm_feedCommand (p : Bytes) : cmdForm (feedCommand p).cmd = .feed := by
  simp [feedCommand, cmdForm_assemble]

theorem EncodedWord.cmdReset (seq : U16) : EncodedWord.Statement (.cmdReset seq) := by
  intro _; simp [encode, cmdForm_assemble, EncodedWord.row]

theorem EncodedWord.cmdDecode (p : Bytes) : EncodedWord.Statement (.cmdDecode p) := by
  intro _; simp [encode, cmdForm_assemble, EncodedWord.row]

theorem EncodedWord.cmdEncode (pt : BitVec 7) (m : Bool) (ts ssrc : U32) :
    EncodedWord.Statement (.cmdEncode pt m ts ssrc) := by
  intro _; simp [encode, cmdForm_assemble, EncodedWord.row]

theorem EncodedWord.cmdFeed (p : Bytes) : EncodedWord.Statement (.cmdFeed p) :=
  fun _ => cmdForm_feedCommand p

theorem EncodedWord.cmdEmit (ty : RtpType) (pre m sinkEn : Bool) (pt : BitVec 7) (ts ssrc : U32) (d : Bytes) :
    EncodedWord.Statement (.cmdEmit ty pre m sinkEn pt ts ssrc d) := by
  intro _; simp [encode, cmdForm_assemble, EncodedWord.row]

theorem EncodedWord.illegalOp5 (w : U32) : EncodedWord.Statement (.illegalOp5 w) := by
  intro h
  simp only [Instr.wellFormed, decide_eq_true_eq] at h
  simp [encode, wordCommand, cmdForm_eq, h, EncodedWord.row]

theorem EncodedWord.illegalOp6 (w : U32) : EncodedWord.Statement (.illegalOp6 w) := by
  intro h
  simp only [Instr.wellFormed, decide_eq_true_eq] at h
  simp [encode, wordCommand, cmdForm_eq, h, EncodedWord.row]

theorem EncodedWord.illegalOp7 (w : U32) : EncodedWord.Statement (.illegalOp7 w) := by
  intro h
  simp only [Instr.wellFormed, decide_eq_true_eq] at h
  simp [encode, wordCommand, cmdForm_eq, h, EncodedWord.row]

theorem EncodedWord.illegal (w : U32) : EncodedWord.Statement (.illegal w) := by
  intro h
  simp only [Instr.wellFormed, Bool.and_eq_true, decide_eq_true_eq] at h
  show cmdForm w = .other
  rw [cmdForm_eq, if_neg (by omega), if_neg (by omega), if_neg (by omega), if_pos h.2]

theorem EncodedWord.feedUnsupportedT0 (p : Bytes) : EncodedWord.Statement (.feedUnsupportedT0 p) :=
  fun _ => cmdForm_feedCommand p

theorem EncodedWord.feedSingleT1 (p : Bytes) : EncodedWord.Statement (.feedSingleT1 p) :=
  fun _ => cmdForm_feedCommand p

theorem EncodedWord.feedSingleT2to3 (p : Bytes) : EncodedWord.Statement (.feedSingleT2to3 p) :=
  fun _ => cmdForm_feedCommand p

theorem EncodedWord.feedSingleT4to7 (p : Bytes) : EncodedWord.Statement (.feedSingleT4to7 p) :=
  fun _ => cmdForm_feedCommand p

theorem EncodedWord.feedSingleT8to15 (p : Bytes) : EncodedWord.Statement (.feedSingleT8to15 p) :=
  fun _ => cmdForm_feedCommand p

theorem EncodedWord.feedSingleT16to23 (p : Bytes) : EncodedWord.Statement (.feedSingleT16to23 p) :=
  fun _ => cmdForm_feedCommand p

theorem EncodedWord.feedStapa (p : Bytes) : EncodedWord.Statement (.feedStapa p) :=
  fun _ => cmdForm_feedCommand p

theorem EncodedWord.feedUnsupportedT25 (p : Bytes) : EncodedWord.Statement (.feedUnsupportedT25 p) :=
  fun _ => cmdForm_feedCommand p

theorem EncodedWord.feedUnsupportedT26to27 (p : Bytes) : EncodedWord.Statement (.feedUnsupportedT26to27 p) :=
  fun _ => cmdForm_feedCommand p

theorem EncodedWord.feedFuaMiddle (p : Bytes) : EncodedWord.Statement (.feedFuaMiddle p) :=
  fun _ => cmdForm_feedCommand p

theorem EncodedWord.feedFuaEnd (p : Bytes) : EncodedWord.Statement (.feedFuaEnd p) :=
  fun _ => cmdForm_feedCommand p

theorem EncodedWord.feedFuaStart (p : Bytes) : EncodedWord.Statement (.feedFuaStart p) :=
  fun _ => cmdForm_feedCommand p

theorem EncodedWord.feedFuaSingle (p : Bytes) : EncodedWord.Statement (.feedFuaSingle p) :=
  fun _ => cmdForm_feedCommand p

theorem EncodedWord.feedUnsupportedT29 (p : Bytes) : EncodedWord.Statement (.feedUnsupportedT29 p) :=
  fun _ => cmdForm_feedCommand p

theorem EncodedWord.feedUnsupportedT30to31 (p : Bytes) : EncodedWord.Statement (.feedUnsupportedT30to31 p) :=
  fun _ => cmdForm_feedCommand p

end Sys2Proof.Laws
end

