-- ==== Sys2Proof/Laws/Step.lean ====
section
/-! SUPPORT. Runs of the machine, step by step: what `Host.Core.run` does after a next state and after a refusal. -/

namespace Sys2Proof.Laws

open Sys2Proof.Machine

theorem run_zero (s : State) : Host.Core.run Sys2Proof.core 0 s = .next s := rfl

theorem run_next {s s' : State} (h : step s = .next s') (n : Nat) :
    Host.Core.run Sys2Proof.core (n + 1) s = Host.Core.run Sys2Proof.core n s' := by
  have hc : Sys2Proof.core.step s = .next s' := h
  exact (Host.Core.run.eq_2 Sys2Proof.core s n).trans (by rw [hc])

theorem run_refused {s : State} {r : Refusal} (h : step s = .refused r) (n : Nat) :
    Host.Core.run Sys2Proof.core (n + 1) s = .refused r := by
  have hc : Sys2Proof.core.step s = .refused r := h
  exact (Host.Core.run.eq_2 Sys2Proof.core s n).trans (by rw [hc])

end Sys2Proof.Laws
end

