-- ==== Sys2Proof/Tests/Slice0.lean ====
section
/-! SUPPORT. The model's own tests. Expected values are those of spec/95_test_vectors.md (the vector is named at each test)
or are written out from the spec's encodings. The witnesses at the end meet the hypotheses of the statements in
Certificates/Slice0/Obligations.lean. -/

namespace Sys2Proof.Tests

open Sys2Proof.Machine

/-- Bytes from numbers. -/
def bytes (l : List Nat) : Bytes := l.map (BitVec.ofNat 8)

/-- The header `h0` of 95_test_vectors.md, then a payload. -/
def h0 (payload : List Nat) : Bytes := bytes ([0x80, 0x60, 0, 1, 0, 0, 0x0B, 0xB8, 0, 0, 0, 0x2A] ++ payload)

/-- Power-on with a SEQ. -/
def startSeq (n : Nat) : State := { State.reset with seq := BitVec.ofNat 16 n }

/-- The state after, where there is one. -/
def nextOf (o : Host.Outcome State Fault Refusal) : Option State :=
  match o with
  | .next s => some s
  | .fault _ => none
  | .refused _ => none

/-- Status and FRM after one instruction. -/
def fed (o : Host.Outcome State Fault Refusal) : Option (Option Status × FrameRegs) :=
  (nextOf o).map (fun s => (s.resp.map Response.status, s.frm))

/-- Response and SEQ after one instruction. -/
def answered (o : Host.Outcome State Fault Refusal) : Option (Option Response × U16) :=
  (nextOf o).map (fun s => (s.resp, s.seq))

/-- A frame of 95_test_vectors.md. -/
def frame (t ssrc ts len : Nat) (parts : List Part) : FrameRegs :=
  ⟨BitVec.ofNat 5 t, BitVec.ofNat 32 ssrc, BitVec.ofNat 32 ts, len, parts⟩

/-- A part of 95_test_vectors.md. -/
def part (t : Nat) (data : List Nat) (rtp : Option (List Nat)) : Part := ⟨BitVec.ofNat 5 t, bytes data, rtp.map bytes⟩

/-- The packet of V-F4a. -/
def packetF4a : Bytes := bytes [0x80, 0x60, 0, 0x0A, 0, 0, 0x10, 0, 0, 0, 0, 0x2A, 0x7C, 0x87, 0xAA, 0xBB]

/-- The packet of V-F4b. -/
def packetF4b : Bytes := bytes [0x80, 0x60, 0, 0x0B, 0, 0, 0x10, 0, 0, 0, 0, 0x2A, 0x7C, 0x07, 0xCC]

/-- The packet of V-F4c. -/
def packetF4c : Bytes := bytes [0x80, 0xE0, 0, 0x0C, 0, 0, 0x10, 0, 0, 0, 0, 0x2A, 0x7C, 0x47, 0xDD, 0xEE]

/-- The parts after V-F4a. -/
def partsF4a : List Part :=
  [part 7 [0x67] none,
   part 7 [0xAA, 0xBB] (some [0, 0x0A, 0, 0, 0x10, 0, 0, 0, 0, 0x2A, 0x7C, 0x87, 0xAA, 0xBB])]

/-- The part V-F4b adds. -/
def partF4b : Part := part 7 [0xCC] (some [0, 0x0B, 0, 0, 0x10, 0, 0, 0, 0, 0x2A, 0x7C, 0x07, 0xCC])

/-- The part V-F4c adds. -/
def partF4c : Part := part 7 [0xDD, 0xEE] (some [0, 0x0C, 0, 0, 0x10, 0, 0, 0, 0, 0x2A, 0x7C, 0x47, 0xDD, 0xEE])

/-- A state that holds a frame. -/
def holding (f : FrameRegs) : State := { State.reset with frm := f }

/-- The state after V-F4a. -/
def stateF4a : State :=
  { State.reset with frm := frame 7 0x2A 0x1000 3 partsF4a, resp := some ⟨.pending, .nothing⟩ }

/-- The frame of V-F1. -/
def frameF1 : FrameRegs :=
  frame 5 0x2A 0xBB8 4 [⟨5#5, bytes [0x65, 0x88, 0x84, 0], some (h0 [0x65, 0x88, 0x84, 0])⟩]

/-- The state after V-F1. -/
def stateF1 : State :=
  { State.reset with frm := frameF1, viewValid := true, resp := some ⟨.complete, .frame frameF1⟩ }

/-- Power-on with `FRAME_BUF_MAX = 4`, as V-F20 sets it. -/
def smallBuffer : State := State.powerOn { Config.default with frameBufMax := 4 }

/-- Power-on with `MAX_PARTS = 2`, as V-F20e sets it. -/
def twoParts : State := State.powerOn { Config.default with maxParts := some 2 }

/-- Power-on with `MAX_PACKET_LEN = 16`, as V-M8 sets it. -/
def smallPackets : State := State.powerOn { Config.default with maxPacketLen := 16 }

/-- Power-on with the shortest operands R10 allows. -/
def smallOperands : State := State.powerOn { Config.default with pktMax := 12, emitMax := 1 }

/-! ### Well-formed instructions: a term each check refuses, and one it accepts -/

theorem test_wf_feed : Instr.wellFormed (.cmdFeed (h0 [0x65])) = false ∧ Instr.wellFormed (.cmdFeed (h0 [])) = true ∧
    Instr.wellFormed (.cmdFeed (h0 [0x7C])) = true ∧ Instr.wellFormed (.cmdFeed []) = true := by decide

theorem test_wf_illegal : Instr.wellFormed (.illegalOp5 6#32) = false ∧ Instr.wellFormed (.illegalOp6 7#32) = false ∧
    Instr.wellFormed (.illegalOp7 5#32) = false ∧ Instr.wellFormed (.illegal 3#32) = false ∧
    Instr.wellFormed (.illegal 0x8005#32) = false ∧ Instr.wellFormed (.illegal 0x8004#32) = true := by decide

theorem test_wf_type0_and_singles : Instr.wellFormed (.feedUnsupportedT0 (h0 [0x01])) = false ∧
    Instr.wellFormed (.feedSingleT1 (h0 [0x02])) = false ∧ Instr.wellFormed (.feedSingleT2to3 (h0 [0x04])) = false ∧
    Instr.wellFormed (.feedSingleT4to7 (h0 [0x03])) = false ∧ Instr.wellFormed (.feedSingleT8to15 (h0 [0x10])) = false ∧
    Instr.wellFormed (.feedSingleT16to23 (h0 [0x18])) = false := by decide

theorem test_wf_high_types : Instr.wellFormed (.feedStapa (h0 [0x19])) = false ∧
    Instr.wellFormed (.feedUnsupportedT25 (h0 [0x18])) = false ∧
    Instr.wellFormed (.feedUnsupportedT26to27 (h0 [0x1C])) = false ∧
    Instr.wellFormed (.feedUnsupportedT29 (h0 [0x1E])) = false ∧
    Instr.wellFormed (.feedUnsupportedT30to31 (h0 [0x1D])) = false ∧ Instr.wellFormed (.feedStapa []) = false := by decide

theorem test_wf_fua : Instr.wellFormed (.feedFuaMiddle (h0 [0x1C, 0x80])) = false ∧
    Instr.wellFormed (.feedFuaEnd (h0 [0x1C, 0x00])) = false ∧ Instr.wellFormed (.feedFuaStart (h0 [0x1C, 0xC0])) = false ∧
    Instr.wellFormed (.feedFuaSingle (h0 [0x1C, 0x40])) = false ∧ Instr.wellFormed (.feedFuaStart (h0 [0x1C])) = false ∧
    Instr.wellFormed (.feedFuaStart (h0 [0x1D, 0x80])) = false := by decide

/-! ### Decoding, from words written out bit by bit (R57, R58, R61, R74, R75) -/

/-- RESET `op = 000`, upper half of ARG0 unused (V-R2); DECODE `op = 001`. -/
theorem test_decode_reset_decode : decode ⟨0b000#32, 0xABCD0000#32, 0#32, []⟩ = .cmdReset 0#16 ∧
    decode ⟨0b001#32, 0#32, 0#32, h0 []⟩ = .cmdDecode (h0 []) := by decide

/-- ENCODE: `pt = 1100000`, `type = 11`, `sink_en = 1`, `m = 0`, `pre = 1`, `op = 010` (V-X5); and V-N1. -/
theorem test_decode_encode :
    decode ⟨0b1100000_11_1_0_1_010#32, 1#32, 2#32, bytes [9]⟩ = .cmdEncode 96#7 false 1#32 2#32 ∧
    decode ⟨0x00006012#32, 0x01020304#32, 0xAABBCCDD#32, []⟩ = .cmdEncode 96#7 true 0x01020304#32 0xAABBCCDD#32 := by
  decide

/-- EMIT: `pt = 0001000`, `type = 00`, `sink_en = 1`, `m = 0`, `pre = 0`, `op = 100` (V-M8); and V-M9. -/
theorem test_decode_emit :
    decode ⟨0b0001000_00_1_0_0_100#32, 0x10#32, 0x20#32, bytes [1]⟩ =
      .cmdEmit .audio false false true 8#7 0x10#32 0x20#32 (bytes [1]) ∧
    decode ⟨0x000000E4#32, 0#32, 0#32, bytes [1]⟩ = .cmdEmit .videoControl false false true 0#7 0#32 0#32 (bytes [1]) := by
  decide

/-- The illegal words of V-X1 to V-X4, and `op = 6` with every other bit set. -/
theorem test_decode_illegal : decode ⟨5#32, 0#32, 0#32, []⟩ = .illegalOp5 5#32 ∧
    decode ⟨7#32, 0#32, 0#32, []⟩ = .illegalOp7 7#32 ∧
    decode ⟨0x00008003#32, 0#32, 0#32, h0 [0x65]⟩ = .illegal 0x00008003#32 ∧
    decode ⟨0x80006002#32, 0#32, 0#32, []⟩ = .illegal 0x80006002#32 ∧
    decode ⟨0xFFFFFFFE#32, 0#32, 0#32, []⟩ = .illegalOp6 0xFFFFFFFE#32 := by decide

/-- FEED: the packet chooses the row; the ends of each range of R74, F and NRI set in some. -/
theorem test_decode_feed_singles :
    decode ⟨0b011#32, 0#32, 0#32, h0 [0b000_00000]⟩ = .feedUnsupportedT0 (h0 [0x00]) ∧
    feedInstr (h0 [0b011_00001]) = .feedSingleT1 (h0 [0x61]) ∧
    feedInstr (h0 [0b000_00010]) = .feedSingleT2to3 (h0 [0x02]) ∧
    feedInstr (h0 [0b000_00011]) = .feedSingleT2to3 (h0 [0x03]) ∧
    feedInstr (h0 [0b000_00100]) = .feedSingleT4to7 (h0 [0x04]) ∧
    feedInstr (h0 [0b111_00111]) = .feedSingleT4to7 (h0 [0xE7]) ∧
    feedInstr (h0 [0b000_01000]) = .feedSingleT8to15 (h0 [0x08]) ∧
    feedInstr (h0 [0b000_01111]) = .feedSingleT8to15 (h0 [0x0F]) ∧
    feedInstr (h0 [0b000_10000]) = .feedSingleT16to23 (h0 [0x10]) ∧
    feedInstr (h0 [0b000_10111]) = .feedSingleT16to23 (h0 [0x17]) := by decide

theorem test_decode_feed_high_types :
    feedInstr (h0 [0b000_11000]) = .feedStapa (h0 [0x18]) ∧
    feedInstr (h0 [0b000_11001]) = .feedUnsupportedT25 (h0 [0x19]) ∧
    feedInstr (h0 [0b000_11010]) = .feedUnsupportedT26to27 (h0 [0x1A]) ∧
    feedInstr (h0 [0b000_11011]) = .feedUnsupportedT26to27 (h0 [0x1B]) ∧
    feedInstr (h0 [0b000_11101]) = .feedUnsupportedT29 (h0 [0x1D]) ∧
    feedInstr (h0 [0b000_11110]) = .feedUnsupportedT30to31 (h0 [0x1E]) ∧
    feedInstr (h0 [0b111_11111]) = .feedUnsupportedT30to31 (h0 [0xFF]) := by decide

/-- The FU-A forms by S and E, the R bit and the low five bits free (R71, R75), and FU-A without its FU header. -/
theorem test_decode_feed_fua :
    feedInstr (h0 [0b011_11100, 0b0_0_1_00101]) = .feedFuaMiddle (h0 [0x7C, 0x25]) ∧
    feedInstr (h0 [0b011_11100, 0b0_1_0_00101]) = .feedFuaEnd (h0 [0x7C, 0x45]) ∧
    feedInstr (h0 [0b011_11100, 0b1_0_0_00101]) = .feedFuaStart (h0 [0x7C, 0x85]) ∧
    feedInstr (h0 [0b011_11100, 0b1_1_0_00101]) = .feedFuaSingle (h0 [0x7C, 0xC5]) ∧
    feedInstr (h0 [0b011_11100]) = .cmdFeed (h0 [0x7C]) ∧ feedInstr (h0 []) = .cmdFeed (h0 []) := by decide

/-- The table's words (log 10): a NALHDR8 byte, a FUA16 word, a CMD32 word and an ILLEGAL.OP row's fixed bits. -/
theorem test_table_words : decodeTableWord 8 0x18 = some (.feedStapa (bytes (List.replicate 12 0 ++ [0x18]))) ∧
    decodeTableWord 16 0x1C80 = some (.feedFuaStart (bytes (List.replicate 12 0 ++ [0x1C, 0x80]))) ∧
    decodeTableWord 32 2 = some (.cmdEncode 0#7 false 0#32 0#32) ∧ decodeTableWord 8 6 = some (.illegalOp6 6#32) := by
  decide

/-- The next step runs the word put first (log 2, log 10). -/
theorem test_fetch_word : fed (step (State.reset.withFetchWord 16 0x1C80)) =
    some (some .pending, frame 0 0 0 1 [part 0 [0] none,
      part 0 [] (some [0, 0, 0, 0, 0, 0, 0, 0, 0, 0, 0x1C, 0x80])]) := by decide

/-! ### The codec (V-R, V-D, V-N, V-X) -/

/-- V-R1. -/
theorem test_reset : (nextOf (exec (.cmdReset 0xFFFE#16) { stateF1 with seq := 0x42#16 })).map
    (fun s => (s.resp, s.seq, s.frm, s.view)) =
      some (some ⟨.ok, .nothing⟩, 0xFFFE#16, frame 0 0 0 0 [], none) := by decide

/-- V-D16: CSRC, extension and padding together. -/
theorem test_decode_all_parts : answered (exec (.cmdDecode (bytes [0xB1, 0x60, 0x12, 0x34, 0xDE, 0xAD, 0xBE, 0xEF, 1, 2, 3, 4,
      9, 9, 9, 9, 0x10, 0, 0, 0, 0x65, 0x88, 0, 2])) State.reset) =
    some (some ⟨.ok, .header ⟨2#2, true, 2#8, true, 0x1000#16, 0#16, 1#4, false, 96#7, 0x1234#16, 0xDEADBEEF#32,
      0x01020304#32, 20, 22, bytes [0x65, 0x88]⟩⟩, 0#16) := by decide

/-- V-D13: the padding count byte is the SSRC's low byte, and `pe` is negative. -/
theorem test_decode_malformed : answered (exec (.cmdDecode (bytes [0xA0, 0x60, 0, 1, 0, 0, 0, 0x0A, 0x12, 0x34, 0x56, 0x78]))
    State.reset) = some (some ⟨.malformedHeader, .nothing⟩, 0#16) := by decide

/-- V-N1. -/
theorem test_encode_bytes : answered (exec (.cmdEncode 96#7 true 0x01020304#32 0xAABBCCDD#32) (startSeq 0)) =
    some (some ⟨.ok, .encoded (bytes [0x80, 0xE0, 0, 0, 1, 2, 3, 4, 0xAA, 0xBB, 0xCC, 0xDD])⟩, 1#16) := by decide

/-- V-N2: SEQ wraps. -/
theorem test_encode_wraps : answered (exec (.cmdEncode 0#7 false 0#32 0#32) (startSeq 0xFFFF)) =
    some (some ⟨.ok, .encoded (bytes [0x80, 0, 0xFF, 0xFF, 0, 0, 0, 0, 0, 0, 0, 0])⟩, 0#16) := by decide

/-- V-X1, V-X2, V-X3. -/
theorem test_illegal_words : answered (exec (.illegalOp5 5#32) (startSeq 3)) = some (some ⟨.illegalCommand, .nothing⟩, 3#16) ∧
    answered (exec (.illegalOp7 7#32) (startSeq 3)) = some (some ⟨.illegalCommand, .nothing⟩, 3#16) ∧
    fed (exec (.illegal 0x8003#32) State.reset) = some (some .illegalCommand, frame 0 0 0 0 []) := by decide

/-- R61 for `op = 6`. -/
theorem test_illegal_op6 : fed (exec (.illegalOp6 6#32) stateF1) = some (some .illegalCommand, frameF1) := by decide

/-! ### The deframer (V-F) -/

/-- V-F17 and V-F18, the priority of R102. -/
theorem test_feed_entry : fed (exec (.cmdFeed (bytes [0x80, 0x60, 0, 1, 0, 0, 0x0B, 0xB8, 0, 0, 0])) State.reset) =
      some (some .malformedPacket, frame 0 0 0 0 []) ∧
    fed (exec (.cmdFeed (bytes [0x83, 0x60, 0, 1, 0, 0, 0x0B, 0xB8, 0, 0, 0, 0x2A, 1, 2, 3, 4, 5, 6, 7, 8])) State.reset) =
      some (some .malformedHeader, frame 0 0 0 0 []) := by decide

/-- V-F16 (D14) and V-F7 (D15). -/
theorem test_feed_empty_payload : fed (exec (.cmdFeed (h0 [])) State.reset) =
      some (some .malformedPacket, frame 0 0 0 0 []) ∧
    fed (exec (.cmdFeed (h0 [0x7C])) State.reset) = some (some .malformedPacket, frame 0 0 0 0 []) := by decide

/-- V-F1. -/
theorem test_single_whole_packet : fed (exec (.feedSingleT4to7 (h0 [0x65, 0x88, 0x84, 0])) State.reset) =
    some (some .complete, frameF1) := by decide

/-- V-F2: with one CSRC the window starts inside the header. -/
theorem test_single_window : fed (exec (.feedSingleT1 (bytes [0x81, 0x60, 0, 2, 0, 0, 0x0B, 0xB8, 0, 0, 0, 0x2A,
      0xC1, 0xC1, 0xC1, 0xC1, 0x41, 0x9A])) State.reset) =
    some (some .complete, frame 1 0x2A 0xBB8 2
      [part 1 [0x41, 0x9A] (some [0, 0, 0x0B, 0xB8, 0, 0, 0, 0x2A, 0xC1, 0xC1, 0xC1, 0xC1, 0x41, 0x9A])]) := by decide

/-- V-F20a, and the other ranges of R85 at their ends. -/
theorem test_single_overflow : fed (exec (.feedSingleT4to7 (h0 [0x65, 1, 2, 3, 4])) smallBuffer) =
    some (some .frameOverflow, frame 5 0x2A 0xBB8 0 []) := by decide

theorem test_single_other_ranges :
    fed (exec (.feedSingleT2to3 (h0 [0x02])) stateF4a) =
      some (some .complete, frame 2 0x2A 0xBB8 1 [⟨2#5, bytes [2], some (h0 [2])⟩]) ∧
    fed (exec (.feedSingleT8to15 (h0 [0x6F])) stateF4a) =
      some (some .complete, frame 15 0x2A 0xBB8 1 [⟨15#5, bytes [0x6F], some (h0 [0x6F])⟩]) ∧
    fed (exec (.feedSingleT16to23 (h0 [0x17])) stateF4a) =
      some (some .complete, frame 23 0x2A 0xBB8 1 [⟨23#5, bytes [0x17], some (h0 [0x17])⟩]) := by decide

/-- V-F4a, V-F4b and V-F4c. -/
theorem test_fua_start : fed (exec (.feedFuaStart packetF4a) stateF1) =
    some (some .pending, frame 7 0x2A 0x1000 3 partsF4a) := by decide

theorem test_fua_middle : fed (exec (.feedFuaMiddle packetF4b) stateF4a) =
    some (some .pending, frame 7 0x2A 0x1000 4 (partsF4a ++ [partF4b])) := by decide

theorem test_fua_end : fed (exec (.feedFuaEnd packetF4c) (holding (frame 7 0x2A 0x1000 4 (partsF4a ++ [partF4b])))) =
    some (some .complete, frame 7 0x2A 0x1000 6 (partsF4a ++ [partF4b, partF4c])) := by decide

/-- V-F5: S and E both set. -/
theorem test_fua_single : fed (exec (.feedFuaSingle (bytes [0x80, 0x60, 0, 0x14, 0, 0, 0x20, 0, 0, 0, 0, 0x2A, 0x5C, 0xC5, 0x11]))
      State.reset) =
    some (some .complete, frame 5 0x2A 0x2000 2 [part 5 [0x45] none,
      part 5 [0x11] (some [0, 0x14, 0, 0, 0x20, 0, 0, 0, 0, 0x2A, 0x5C, 0xC5, 0x11])]) := by decide

/-- V-F6: an end with no start joins FRM0 (D6). -/
theorem test_fua_end_alone : fed (exec (.feedFuaEnd (bytes [0x80, 0x60, 0, 0x15, 0, 0, 0x20, 0, 0, 0, 0, 0x2A, 0x7C, 0x45, 0x22]))
      State.reset) =
    some (some .complete, frame 0 0 0 1
      [part 5 [0x22] (some [0, 0x15, 0, 0, 0x20, 0, 0, 0, 0, 0x2A, 0x7C, 0x45, 0x22])]) := by decide

/-- V-F26: a middle after a completed frame appends to it (C7). -/
theorem test_fua_middle_stray : fed (exec (.feedFuaMiddle (bytes [0x80, 0x60, 0, 2, 0, 0, 0x0B, 0xB8, 0, 0, 0, 0x2A, 0x7C, 5, 0x99]))
      stateF1) =
    some (some .pending, frame 5 0x2A 0xBB8 5 (frameF1.parts ++
      [part 5 [0x99] (some [0, 2, 0, 0, 0x0B, 0xB8, 0, 0, 0, 0x2A, 0x7C, 5, 0x99])])) := by decide

/-- V-F12: a unit of size 0 has type 0 (D17). -/
theorem test_stapa_units : fed (exec (.feedStapa (h0 [0x18, 0, 0, 0, 1, 6])) State.reset) =
    some (some .complete, frame 24 0x2A 0xBB8 1 [part 0 [] none, part 6 [6] none]) := by decide

/-- V-F10: a unit past the payload's end discards the frame (D19). -/
theorem test_stapa_malformed : fed (exec (.feedStapa (bytes [0x80, 0x60, 0, 4, 0, 0, 0x30, 0, 0, 0, 0, 0x77, 0x18, 0, 2, 9, 0x10,
      0, 9, 0x65, 1])) stateF1) = some (some .malformedAggregation, frame 24 0x77 0x3000 0 []) := by decide

/-- V-F14, V-F15 and V-F24, and the other types of R91. -/
theorem test_unsupported :
    fed (exec (.feedUnsupportedT29 (h0 [0x1D, 0])) stateF4a) =
      some (some .unsupportedNaluType, frame 7 0x2A 0x1000 3 partsF4a) ∧
    fed (exec (.feedUnsupportedT0 (h0 [0])) State.reset) = some (some .unsupportedNaluType, frame 0 0 0 0 []) ∧
    fed (exec (.feedUnsupportedT30to31 (h0 [0x1F])) State.reset) = some (some .unsupportedNaluType, frame 0 0 0 0 []) ∧
    fed (exec (.feedUnsupportedT25 (h0 [0x19])) stateF1) = some (some .unsupportedNaluType, frameF1) ∧
    fed (exec (.feedUnsupportedT26to27 (h0 [0x1B])) stateF1) = some (some .unsupportedNaluType, frameF1) := by decide

/-! ### The packetizer (V-M) -/

/-- V-M8: three packets, the marker on the last. -/
theorem test_emit_raw : answered (exec (.cmdEmit .audio false false true 8#7 0x10#32 0x20#32 (bytes [1, 2, 3, 4, 5, 6, 7, 8, 9]))
      smallPackets) =
    some (some ⟨.ok, .outputs
      [⟨.audio, bytes [0x80, 0x08, 0, 0, 0, 0, 0, 0x10, 0, 0, 0, 0x20, 1, 2, 3, 4]⟩,
       ⟨.audio, bytes [0x80, 0x08, 0, 1, 0, 0, 0, 0x10, 0, 0, 0, 0x20, 5, 6, 7, 8]⟩,
       ⟨.audio, bytes [0x80, 0x88, 0, 2, 0, 0, 0, 0x10, 0, 0, 0, 0x20, 9]⟩]⟩, 3#16) := by decide

/-- V-M10: every header byte replaced, the caller's marker used. -/
theorem test_emit_pre : answered (exec (.cmdEmit .video true false true 96#7 0x5000#32 0x2A#32
      (bytes [0xBF, 0xFF, 0x77, 0x77, 0x11, 0x11, 0x11, 0x11, 0x22, 0x22, 0x22, 0x22, 1, 2])) (startSeq 9)) =
    some (some ⟨.ok, .outputs [⟨.video, bytes [0x80, 0x60, 0, 9, 0, 0, 0x50, 0, 0, 0, 0, 0x2A, 1, 2]⟩]⟩, 10#16) := by decide

/-! ### Witnesses: the hypotheses of the statements are met -/

theorem test_witness_StepRunsNextCommand :
    (State.reset.withIssued [feedCommand packetF4a]).issued = feedCommand packetF4a :: [] := by decide

theorem test_witness_IdleStepKeepsState : State.reset.issued = [] := by decide

theorem test_witness_DecodeEncodeAgree : Instr.wellFormed (.feedFuaStart packetF4a) = true ∧
    Instr.wellFormed (.cmdEmit .video true true true 96#7 1#32 2#32 [3#8]) = true ∧
    Instr.wellFormed (.illegal 0x80006002#32) = true := by decide

/-- One word for each clause, reserved bits 0. -/
theorem test_witness_CommandFields :
    ([0x0#32, 0x1#32, 0x6012#32, 0x3#32, 0x7FFC#32, 0x7FFD#32, 0x6#32, 0x7FFF#32] : List U32).map
      (fun w => (decide (w.toNat < 2 ^ 15), w.toNat % 8)) =
    [(true, 0), (true, 1), (true, 2), (true, 3), (true, 4), (true, 5), (true, 6), (true, 7)] := by decide

/-- Clause 2 at its boundaries, then clause 3 on V-N1's word, which answers OK. -/
theorem test_witness_IllegalWordsAnswer :
    ([5#32, 0x7FFE#32, 7#32, 0x8000#32, 0xFFFFFFFC#32] : List U32).map
      (fun w => (decide (5 ≤ w.toNat % 8), decide (2 ^ 15 ≤ w.toNat))) =
      [(true, false), (true, false), (true, false), (false, true), (false, true)] ∧
    ∃ t r, (0x6012#32).toNat % 8 < 5 ∧ (0x6012#32).toNat < 2 ^ 15 ∧
      exec (decode ⟨0x6012#32, 0#32, 0#32, []⟩) State.reset = .next t ∧ t.resp = some r ∧ r.status = .ok :=
  ⟨by decide, _, _, by decide, by decide, rfl, rfl, rfl⟩

/-- A packet for every NAL type, with the FU header for 28. -/
theorem test_witness_FeedDispatchRows : ∀ t ∈ List.range 32,
    parseHeader (h0 [t, 0x80]) = some (headerInfo (h0 [t, 0x80])) ∧ (headerInfo (h0 [t, 0x80])).ps < (headerInfo (h0 [t, 0x80])).pe ∧
    (byteAt (h0 [t, 0x80]) (headerInfo (h0 [t, 0x80])).ps).toNat % 32 = t ∧
    2 ≤ (headerInfo (h0 [t, 0x80])).pe - (headerInfo (h0 [t, 0x80])).ps := by decide

theorem test_witness_EveryCommandAnswers : State.reset.cfg.valid = true ∧
    operandRefusal State.reset.cfg (.feedStapa (h0 [0x18])) = none ∧ operandRefusal smallOperands.cfg (.cmdDecode (h0 [])) = none ∧
    operandRefusal smallOperands.cfg (.cmdEmit .audio false false true 0#7 0#32 0#32 [1#8]) = none := by decide

/-- One byte past each limit. -/
theorem test_witness_OversizedOperandRefused :
    operandRefusal smallOperands.cfg (decode ⟨1#32, 0#32, 0#32, h0 [1]⟩) = some .packetOperandTooLong ∧
    operandRefusal smallOperands.cfg (decode ⟨3#32, 0#32, 0#32, h0 [1]⟩) = some .packetOperandTooLong ∧
    operandRefusal smallOperands.cfg (decode ⟨4#32, 0#32, 0#32, [1#8, 2#8]⟩) = some .dataOperandTooLong ∧
    smallOperands.cfg.valid = true := by decide

/-- V-D3 and V-D2: the shortest header, and one byte less. -/
theorem test_witness_DecodeAnswers : (h0 []).length ≤ State.reset.cfg.pktMax ∧ headerFits (h0 []) = true ∧
    headerFits ((h0 []).take 11) = false := by decide

theorem test_witness_DecodePayloadInPacket : ∃ t h, exec (.cmdDecode (h0 [0x65])) State.reset = .next t ∧
    t.resp = some ⟨.ok, .header h⟩ ∧ h.payload = [0x65#8] :=
  ⟨_, _, rfl, rfl, by decide⟩

theorem test_witness_DecodeInvertsEncode : ∃ t hdr, exec (.cmdEncode 96#7 true 1#32 2#32) State.reset = .next t ∧
    t.resp = some ⟨.ok, .encoded hdr⟩ ∧ 12 + (bytes [1, 2, 3]).length ≤ State.reset.cfg.pktMax :=
  ⟨_, _, rfl, rfl, by decide⟩

/-- V-F17, V-F18 and V-F16. -/
theorem test_witness_FeedEntryFailures : feedPacket (.feedSingleT1 (h0 [])) = some (h0 []) ∧
    ((h0 []).take 11).length < 12 ∧ parseHeader (bytes [0x83, 0x60, 0, 1, 0, 0, 0x0B, 0xB8, 0, 0, 0, 0x2A, 1, 2, 3, 4, 5, 6, 7, 8]) = none ∧
    parseHeader (h0 []) = some (headerInfo (h0 [])) ∧ (headerInfo (h0 [])).ps = (headerInfo (h0 [])).pe := by decide

/-- Types 1 and 23, within the buffer and past it. -/
theorem test_witness_SingleNalAnswers : ∀ t ∈ [1, 23],
    smallBuffer.cfg.valid = true ∧ (h0 [t, 1, 2, 3, 4]).length ≤ smallBuffer.cfg.pktMax ∧
    parseHeader (h0 [t, 1, 2, 3, 4]) = some (headerInfo (h0 [t, 1, 2, 3, 4])) ∧
    ¬ (headerInfo (h0 [t, 1, 2, 3, 4])).pe - (headerInfo (h0 [t, 1, 2, 3, 4])).ps ≤ smallBuffer.cfg.frameBufMax ∧
    1 ≤ (byteAt (h0 [t, 1, 2, 3, 4]) 12).toNat % 32 ∧ (byteAt (h0 [t, 1, 2, 3, 4]) 12).toNat % 32 ≤ 23 := by decide

/-- V-F7, V-F20c (the buffer exactly full) and one byte more; and a third part past `MAX_PARTS = 2`. -/
theorem test_witness_FuaAnswers :
    (parseHeader (h0 [0x7C]) = some (headerInfo (h0 [0x7C])) ∧ (headerInfo (h0 [0x7C])).pe - (headerInfo (h0 [0x7C])).ps = 1) ∧
    fed (exec (.feedFuaStart (h0 [0x7C, 0x85, 1, 2, 3])) smallBuffer) =
      some (some .pending, frame 5 0x2A 0xBB8 4 [part 5 [0x65] none,
        part 5 [1, 2, 3] (some [0, 1, 0, 0, 0x0B, 0xB8, 0, 0, 0, 0x2A, 0x7C, 0x85, 1, 2, 3])]) ∧
    fed (exec (.feedFuaStart (h0 [0x7C, 0x85, 1, 2, 3, 4])) smallBuffer) =
      some (some .frameOverflow, frame 5 0x2A 0xBB8 0 []) ∧
    fed (exec (.feedFuaEnd packetF4c) { twoParts with frm := frame 7 0x2A 0x1000 3 partsF4a }) =
      some (some .frameOverflow, frame 7 0x2A 0x1000 0 []) := by decide

/-- The three clauses on V-F12, V-F10's cut and V-F20e. -/
theorem test_witness_StapaAnswers :
    slice (h0 [0x18, 0, 0, 0, 1, 6, 0xFF]) 13 19 = [bytes [], bytes [6]].flatMap stapaUnit ++ bytes [0xFF] ∧
    slice (h0 [0x18, 0, 2, 9, 0x10, 0, 9, 0x65, 1]) 13 21 = [bytes [9, 0x10]].flatMap stapaUnit ++ 0#8 :: 9#8 :: bytes [0x65, 1] ∧
    slice (h0 [0x18, 0, 1, 0x61, 0, 1, 0x62, 0, 1, 0x63]) 13 22 =
      [bytes [0x61], bytes [0x62]].flatMap stapaUnit ++ (stapaUnit (bytes [0x63]) ++ []) ∧
    twoParts.cfg.partsFit 2 = true ∧ twoParts.cfg.partsFit 3 = false ∧
    fed (exec (.feedStapa (h0 [0x18, 0, 1, 0x61, 0, 1, 0x62, 0, 1, 0x63])) twoParts) =
      some (some .frameOverflow, frame 24 0x2A 0xBB8 0 []) := by decide

theorem test_witness_UnsupportedAnswers : ∀ t ∈ [0, 25, 26, 27, 29, 30, 31],
    parseHeader (h0 [t]) = some (headerInfo (h0 [t])) ∧ (headerInfo (h0 [t])).ps < (headerInfo (h0 [t])).pe ∧
    (byteAt (h0 [t]) (headerInfo (h0 [t])).ps).toNat % 32 ∈ [0, 25, 26, 27, 29, 30, 31] := by decide

/-- One run to each error status. -/
theorem test_witness_ErrorsLeaveState :
    [exec (.illegalOp5 5#32) stateF1, exec (.cmdFeed (h0 [])) stateF1, exec (.cmdDecode []) stateF1,
      exec (.feedUnsupportedT25 (h0 [0x19])) stateF1, exec (.feedStapa (h0 [0x18, 0, 9])) stateF1,
      exec (.feedSingleT4to7 (h0 [0x65, 1, 2, 3, 4])) smallBuffer].map (fun o => (nextOf o).map (fun t => t.resp.map Response.status)) =
    [some (some .illegalCommand), some (some .malformedPacket), some (some .malformedHeader),
      some (some .unsupportedNaluType), some (some .malformedAggregation), some (some .frameOverflow)] := by decide

/-- FrameOverflow by form, FEED itself among them: a continuation keeps the old type, SSRC and timestamp; a start, a single
NAL unit (V-F20a) and a STAP-A (V-F20d) leave their own. -/
theorem test_witness_ErrorsLeaveState_overflow :
    feedRow (h0 [0x7C, 0x45, 9]) (.cmdFeed (h0 [0x7C, 0x45, 9])) = .feedFuaEnd (h0 [0x7C, 0x45, 9]) ∧
    feedRow (h0 [0x18]) (.feedStapa (h0 [0x18])) = .feedStapa (h0 [0x18]) ∧
    [exec (.feedFuaMiddle (h0 [0x7C, 0x05, 9])) { twoParts with frm := frame 7 0x99 0x1000 3 partsF4a },
      exec (.cmdFeed (h0 [0x7C, 0x45, 9])) { twoParts with frm := frame 7 0x99 0x1000 3 partsF4a },
      exec (.cmdFeed (h0 [0x7C, 0x85, 1, 2, 3, 4])) smallBuffer,
      exec (.cmdFeed (h0 [0x65, 1, 2, 3, 4])) smallBuffer,
      exec (.feedStapa (h0 [0x18, 0, 2, 0x61, 1, 0, 3, 0x61, 2, 3])) smallBuffer].map fed =
    [some (some .frameOverflow, frame 7 0x99 0x1000 0 []), some (some .frameOverflow, frame 7 0x99 0x1000 0 []),
      some (some .frameOverflow, frame 5 0x2A 0xBB8 0 []), some (some .frameOverflow, frame 5 0x2A 0xBB8 0 []),
      some (some .frameOverflow, frame 24 0x2A 0xBB8 0 [])] := by decide

/-- A COMPLETE, a FEED that ends the view, a RESET that ends it and an ENCODE that keeps it. -/
theorem test_witness_FrameViewValidity :
    [exec (.feedSingleT4to7 (h0 [0x65])) stateF4a, exec (.feedUnsupportedT0 (h0 [0])) stateF1, exec (.cmdReset 0#16) stateF1,
      exec (.cmdEncode 0#7 false 0#32 0#32) stateF1].map (fun o => (nextOf o).map State.view) =
    [some (some (frame 5 0x2A 0xBB8 1 [⟨5#5, [0x65#8], some (h0 [0x65])⟩])), some none, some none, some (some frameF1)] := by decide

/-- Offsets `ps` and `pe`, and a packet with no CSRC, extension or padding. -/
theorem test_witness_WindowHoldsHeaderRoomAndData : parseHeader (h0 [0x65]) = some (headerInfo (h0 [0x65])) ∧
    (headerInfo (h0 [0x65])).ps ≤ 12 ∧ 12 ≤ (headerInfo (h0 [0x65])).pe ∧ (headerInfo (h0 [0x65])).pe = 13 ∧
    (headerInfo (h0 [0x65])).cc = 0#4 ∧ (headerInfo (h0 [0x65])).x = false ∧ (headerInfo (h0 [0x65])).pf = false := by decide

theorem test_witness_ContinuationAppendsBytes : ∃ t r, stateF4a.good = true ∧
    parseHeader packetF4b = some (headerInfo packetF4b) ∧ exec (.feedFuaMiddle packetF4b) stateF4a = .next t ∧
    t.resp = some r ∧ r.status = .pending ∧ t.frm.readByte 3 = some 0xCC#8 :=
  ⟨_, _, by decide, by decide, rfl, rfl, rfl, by decide⟩

/-- V-F4 as one sequence. -/
theorem test_witness_FuaSequenceReassembles :
    (State.reset.withIssued ([packetF4a, packetF4b, packetF4c].map feedCommand)).issued =
      (packetF4a :: [packetF4b] ++ [packetF4c]).map feedCommand ∧ State.reset.cfg.valid = true ∧
    (∀ p ∈ packetF4a :: [packetF4b] ++ [packetF4c], p.length ≤ State.reset.cfg.pktMax) ∧
    feedInstr packetF4a = .feedFuaStart packetF4a ∧ feedInstr packetF4b = .feedFuaMiddle packetF4b ∧
    feedInstr packetF4c = .feedFuaEnd packetF4c ∧ parseHeader packetF4a = some (headerInfo packetF4a) ∧
    1 + (((packetF4a :: [packetF4b] ++ [packetF4c]).map fuaFragmentBytes).map List.length).sum ≤ State.reset.cfg.frameBufMax ∧
    State.reset.cfg.partsFit 4 = true := by decide

/-- V-F1's packet and one with another version, marker, payload type and sequence number. -/
theorem test_witness_FeedIgnoresVersionMarkerTypeAndSequence : ∃ t u, (0x80#8).toNat % 64 = (0x40#8).toNat % 64 ∧
    exec (.cmdFeed (0x80#8 :: 0x60#8 :: 0#8 :: 1#8 :: bytes [0, 0, 0x0B, 0xB8, 0, 0, 0, 0x2A, 0x65, 1])) State.reset = .next t ∧
    exec (.cmdFeed (0x40#8 :: 0xFF#8 :: 9#8 :: 9#8 :: bytes [0, 0, 0x0B, 0xB8, 0, 0, 0, 0x2A, 0x65, 1])) State.reset = .next u :=
  ⟨_, _, by decide, rfl, rfl⟩

/-- V-M4 and V-M5. -/
theorem test_witness_EmitWithoutDataOrSink : (bytes []).length ≤ State.reset.cfg.emitMax ∧ bytes [] = [] ∧
    (bytes [1, 2, 3]).length ≤ State.reset.cfg.emitMax := by decide

/-- V-M7 (11 bytes) and 12 bytes. -/
theorem test_witness_EmitPreformattedAnswers : ((h0 []).take 11).length ≤ State.reset.cfg.emitMax ∧
    ((h0 []).take 11).length < 12 ∧ (h0 []).length ≤ State.reset.cfg.emitMax ∧ ¬ (h0 []).length < 12 := by decide

theorem test_witness_EmitRawAnswers : smallPackets.cfg.valid = true ∧ (bytes [1, 2, 3, 4, 5]).length ≤ smallPackets.cfg.emitMax ∧
    bytes [1, 2, 3, 4, 5] ≠ [] := by decide

theorem test_witness_EmitRawCarriesData : ∃ t outs,
    exec (.cmdEmit .audio false false true 8#7 0#32 0#32 (bytes [1, 2, 3, 4, 5])) smallPackets = .next t ∧
    t.resp = some ⟨.ok, .outputs outs⟩ ∧ outs.length = 2 :=
  ⟨_, _, rfl, rfl, by decide⟩

theorem test_witness_HeadersShareOneSequence : ∃ t r pkt,
    exec (.cmdEmit .audio false false true 8#7 0#32 0#32 (bytes [1, 2, 3, 4, 5])) { smallPackets with seq := 0xFFFF#16 } = .next t ∧
    t.resp = some r ∧ r.packets[1]? = some pkt ∧ be16 pkt 2 = 0#16 :=
  ⟨_, _, _, rfl, rfl, rfl, by decide⟩

/-- The window of V-F1's part. -/
theorem test_witness_WindowRetransmitsPart : stateF1.good = true ∧
    (⟨5#5, bytes [0x65, 0x88, 0x84, 0], some (h0 [0x65, 0x88, 0x84, 0])⟩ : Part) ∈ stateF1.frm.parts ∧
    (h0 [0x65, 0x88, 0x84, 0]).length ≤ stateF1.cfg.emitMax := by decide

theorem test_witness_WritersOfEachRegister : ∃ t, exec (.cmdDecode (h0 [1])) stateF1 = .next t ∧
    feedPacket (.cmdDecode (h0 [1])) = none ∧ stateF1.frm.readByte 1 = some 0x88#8 ∧
    stateF1.frm.readWindow 0 12 = some 0x65#8 :=
  ⟨_, rfl, by decide, by decide, by decide⟩

/-- Two states that differ in SEQ (FEED), in FRM (ENCODE) and in both (DECODE). -/
theorem test_witness_UnitsReadOnlyTheirState : ∃ t t' u u' v v', stateF1.cfg = { stateF1 with seq := 7#16 }.cfg ∧
    exec (.feedFuaMiddle packetF4b) stateF1 = .next t ∧ exec (.feedFuaMiddle packetF4b) { stateF1 with seq := 7#16 } = .next t' ∧
    exec (.cmdEncode 0#7 false 0#32 0#32) stateF1 = .next u ∧ exec (.cmdEncode 0#7 false 0#32 0#32) stateF4a = .next u' ∧
    exec (.cmdDecode (h0 [])) stateF1 = .next v ∧ exec (.cmdDecode (h0 [])) (startSeq 9) = .next v' :=
  ⟨_, _, _, _, _, _, by decide, rfl, rfl, rfl, rfl, rfl, rfl⟩

theorem test_witness_StepKeepsGood : ∃ t, stateF1.good = true ∧ stateF4a.good = true ∧
    step (stateF1.withIssued [feedCommand packetF4a]) = .next t ∧ (stateF1.withIssued [feedCommand packetF4a]).good = true :=
  ⟨_, by decide, by decide, rfl, by decide⟩

theorem test_witness_PowerOnGood : Config.default.valid = true ∧ smallOperands.cfg.valid = true := by decide

end Sys2Proof.Tests
end

/-! PROOFS. The encoding statements (30_encoding.md): the decoder by arithmetic on the command word (R57, R58, R61), the
statuses each command may answer (60_exceptions.md R99), and FEED's dispatch (R74, R75). -/

namespace Sys2Proof.Proofs

open Sys2Proof.Machine Sys2Proof.Laws

/-! ### The fields of the command word (R57) -/

theorem seq_eq_ofNat (c : Command) : c.seq = BitVec.ofNat 16 c.arg0.toNat := by
  rw [Command.seq, extractLsb'_eq_div, pow_zero, Nat.div_one]

theorem pt_eq_div (c : Command) : c.pt = BitVec.ofNat 7 (c.cmd.toNat / 256) := extractLsb'_eq_div c.cmd 8 7

theorem pre_eq_div (c : Command) : c.pre = decide (c.cmd.toNat / 8 % 2 = 1) := getLsbD_eq_div c.cmd 3

theorem m_eq_div (c : Command) : c.m = decide (c.cmd.toNat / 16 % 2 = 1) := getLsbD_eq_div c.cmd 4

theorem sinkEn_eq_div (c : Command) : c.sinkEn = decide (c.cmd.toNat / 32 % 2 = 1) := getLsbD_eq_div c.cmd 5

/-- The tag of a 2-bit code, as an index into R60's table. -/
theorem rtpTypeOf_eq_getD (b : BitVec 2) :
    rtpTypeOf b = ([.audio, .video, .audioControl, .videoControl] : List RtpType).getD b.toNat .audio := by
  revert b; decide

theorem ty_eq_getD (c : Command) :
    c.ty = ([.audio, .video, .audioControl, .videoControl] : List RtpType).getD (c.cmd.toNat / 64 % 4) .audio := by
  rw [Command.ty, rtpTypeOf_eq_getD, extractLsb'_eq_div, BitVec.toNat_ofNat]
  rfl

/-! ### The decoder by the word's op and its bits from 15 up (R58, R61) -/

theorem decode_eq (c : Command) :
    decode c =
      if c.cmd.toNat % 8 = 5 then .illegalOp5 c.cmd else if c.cmd.toNat % 8 = 6 then .illegalOp6 c.cmd
      else if c.cmd.toNat % 8 = 7 then .illegalOp7 c.cmd
      else if 2 ^ 15 ≤ c.cmd.toNat then .illegal c.cmd
      else if c.cmd.toNat % 8 = 0 then .cmdReset c.seq else if c.cmd.toNat % 8 = 1 then .cmdDecode c.operand
      else if c.cmd.toNat % 8 = 2 then .cmdEncode c.pt c.m c.arg0 c.arg1
      else if c.cmd.toNat % 8 = 3 then feedInstr c.operand
      else .cmdEmit c.ty c.pre c.m c.sinkEn c.pt c.arg0 c.arg1 c.operand := by
  rw [decode, cmdForm_eq]
  split_ifs <;> rfl

/-- Settles O7: the row by `decode_eq`, each operand by its field's lemma. -/
theorem commandFields : Obligations.CommandFields := by
  intro c hw
  have hd := decode_eq c
  rw [seq_eq_ofNat, pt_eq_div, pre_eq_div, m_eq_div, sinkEn_eq_div, ty_eq_getD] at hd
  refine ⟨?reset, ?decode, ?encode, ?feed, ?emit, ?op5, ?op6, ?op7⟩ <;> intro hop
  case feed =>
    have hf : decode c = feedInstr c.operand := by simp (disch := omega) only [hd, if_pos, if_neg]
    exact ⟨by rw [hf, feedPacket_feedInstr], hf⟩
  all_goals simp (disch := omega) only [hd, if_pos, if_neg]

/-! ### The statuses of R99 -/

theorem allowedStatuses_feed {i : Instr} {p : Bytes} (hi : feedPacket i = some p) :
    allowedStatuses i = [.complete, .pending, .malformedPacket, .malformedHeader, .malformedAggregation,
      .unsupportedNaluType, .frameOverflow] := by
  simp only [allowedStatuses, hi]

/-- A FEED that answers does so with an entry failure or with a status of its case (41_h264_deframer.md R81). -/
theorem feed_status_allowed {i : Instr} {p : Bytes} (hi : feedPacket i = some p) {s t : State} {r : Response}
    (ht : exec i s = .next t) (hr : t.resp = some r) : r.status ∈ allowedStatuses i := by
  rw [exec_feed hi] at ht
  rw [allowedStatuses_feed hi]
  obtain ⟨-, ⟨-, rfl | rfl⟩ | ⟨h, hp, hlt, rfl⟩⟩ := feedCommandWith_next ht
  · cases hr; simp
  · cases hr; simp
  · have hs := (feedBody_facts s.cfg hi hp hlt s.frm).status
    cases hr
    simp only [List.mem_cons] at hs ⊢
    tauto

/-- A command that answers does so with a status R99 lets it raise. -/
theorem exec_status_allowed {i : Instr} {s t : State} {r : Response} (ht : exec i s = .next t)
    (hr : t.resp = some r) : r.status ∈ allowedStatuses i := by
  cases hi : feedPacket i with
  | some p => exact feed_status_allowed hi ht hr
  | none =>
    cases i with
    | cmdDecode p =>
      obtain ⟨-, ⟨-, rfl⟩ | ⟨h, -, rfl⟩⟩ := execDecode_next ht
      · cases hr; simp [allowedStatuses, feedPacket]
      · cases hr; simp [allowedStatuses, feedPacket]
    | cmdEmit ty pre m sinkEn pt ts ssrc d =>
      obtain ⟨-, l, rfl, -⟩ := execEmit_next ht
      cases hr
      simp [allowedStatuses, feedPacket]
    | cmdReset | cmdEncode | illegalOp5 | illegalOp6 | illegalOp7 | illegal =>
      cases ht; cases hr; simp [allowedStatuses, feedPacket]
    | _ => cases hi

/-- A word with `op` 0 to 4 and reserved bits 0 is a command that may not raise IllegalCommand (R99). -/
theorem illegalCommand_not_allowed {c : Command} (hop : c.cmd.toNat % 8 < 5) (hw : c.cmd.toNat < 2 ^ 15) :
    Status.illegalCommand ∉ allowedStatuses (decode c) := by
  rw [decode_eq, if_neg (by omega), if_neg (by omega), if_neg (by omega), if_neg (by omega)]
  by_cases hfeed : c.cmd.toNat % 8 = 3
  · rw [if_neg (by omega), if_neg (by omega), if_neg (by omega), if_pos hfeed,
      allowedStatuses_feed (feedPacket_feedInstr _)]
    decide
  · rw [if_neg hfeed]
    split_ifs <;> simp [allowedStatuses, feedPacket]

/-- Settles O8: the illegal rows by `exec`'s arms, the rows by `decode_eq`, the converse by the statuses a legal command
may raise. -/
theorem illegalWordsAnswer : Obligations.IllegalWordsAnswer := by
  refine ⟨fun s w => ⟨rfl, rfl, rfl, rfl⟩, ?rows, ?converse⟩
  case rows =>
    intro c hc
    have hrow : c.cmd.toNat % 8 = 5 ∨ c.cmd.toNat % 8 = 6 ∨ c.cmd.toNat % 8 = 7 ∨ 2 ^ 15 ≤ c.cmd.toNat := by omega
    rw [decode_eq]
    rcases hrow with h5 | h6 | h7 | hbig
    · simp only [h5, if_true]
    · simp [h6]
    · simp [h7]
    · simp only [hbig, if_true]
  case converse =>
    intro c s t r hop hw ht hr heq
    exact illegalCommand_not_allowed hop hw (heq ▸ exec_status_allowed ht hr)

/-! ### FEED's dispatch (R74, R75) -/

/-- `S` as arithmetic (R71). -/
theorem fuStart_eq_le (fu : Byte) : fuStart fu = decide (128 ≤ fu.toNat) := by
  revert fu; decide

/-- `E` as arithmetic (R71). -/
theorem fuEnd_eq_div (fu : Byte) : fuEnd fu = decide (fu.toNat / 64 % 2 = 1) := getLsbD_eq_div fu 6

/-- Settles O9: the packet reaches the dispatch, so `feedInstr_eq` is a chain of tests on its NAL type, of which each
clause meets exactly one. -/
theorem feedDispatchRows : Obligations.FeedDispatchRows := by
  intro p h hp hlt t fu
  have hd := feedInstr_eq p
  simp only [feedHeader_some.mpr ⟨hp, hlt⟩, fuStart_eq_le, fuEnd_eq_div, decide_eq_true_eq] at hd
  have ht : (byteAt p h.ps).toNat % 32 = t := rfl
  have hfu : (byteAt p (h.ps + 1)).toNat = fu := rfl
  rw [ht, hfu] at hd
  clear_value t fu
  refine ⟨?_, ?_, ?_, ?_, ?_, ?_, ?_, ?_, ?_, ?_, ?_, ?_⟩ <;> intros <;>
    simp (disch := omega) only [hd, if_pos, if_neg]

end Sys2Proof.Proofs

/-! PROOFS. The header codec statements (40_rtp_header.md): DECODE as arithmetic on the packet's bytes (R76), ENCODE's
header as arithmetic (R68, R79), and the one sequence of headers ENCODE and EMIT share (R80). -/

namespace Sys2Proof.Proofs

open Sys2Proof.Machine Sys2Proof.Laws

/-! ### ENCODE (R68, R79) -/

theorem u16be_eq_div (v : U16) : u16be v = [BitVec.ofNat 8 (v.toNat / 2 ^ 8), BitVec.ofNat 8 v.toNat] := by
  simp [u16be, extractLsb'_eq_div]

theorem u32be_eq_div (v : U32) :
    u32be v = [BitVec.ofNat 8 (v.toNat / 2 ^ 24), BitVec.ofNat 8 (v.toNat / 2 ^ 16), BitVec.ofNat 8 (v.toNat / 2 ^ 8),
      BitVec.ofNat 8 v.toNat] := by
  simp [u32be, extractLsb'_eq_div]

theorem exec_cmdEncode (pt : BitVec 7) (m : Bool) (ts ssrc : U32) (s : State) :
    exec (.cmdEncode pt m ts ssrc) s =
      .next ((s.withSeq (s.seq + 1#16)).finish .ok (.encoded (headerBytes pt m s.seq ts ssrc))) := rfl

theorem seq_add_one_eq_ofNat_mod (seq : U16) : seq + 1#16 = BitVec.ofNat 16 ((seq.toNat + 1) % 65536) := by
  apply BitVec.eq_of_toNat_eq
  simp [BitVec.toNat_add]

/-- Settles O16: the state and the header of `exec_cmdEncode`, each big-endian field by its bytes. -/
theorem encodeAnswers : Obligations.EncodeAnswers := by
  intro s pt m ts ssrc
  rw [exec_cmdEncode, headerBytes, u16be_eq_div, u32be_eq_div, u32be_eq_div, seq_add_one_eq_ofNat_mod]
  rfl

/-! ### The fields of a packet's header as arithmetic on its bytes (R63 to R67) -/

theorem eq_ofNat_of_toNat {n k : Nat} {x : BitVec n} (h : x.toNat = k) : x = BitVec.ofNat n k := by
  rw [← h, BitVec.ofNat_toNat, BitVec.setWidth_eq]

theorem hasExtension_eq_div (p : Bytes) : hasExtension p = decide ((byteAt p 0).toNat / 16 % 2 = 1) :=
  getLsbD_eq_div (byteAt p 0) 4

theorem paddingFlag_eq_div (b0 : Byte) : paddingFlag b0 = decide (b0.toNat / 32 % 2 = 1) := getLsbD_eq_div b0 5

theorem versionField_eq_div (b0 : Byte) : versionField b0 = BitVec.ofNat 2 (b0.toNat / 64) := extractLsb'_eq_div b0 6 2

theorem csrcCount_eq_ofNat (b0 : Byte) : csrcCount b0 = BitVec.ofNat 4 b0.toNat := by
  rw [csrcCount, extractLsb'_eq_div, pow_zero, Nat.div_one]

theorem payloadTypeField_eq_ofNat (b1 : Byte) : payloadTypeField b1 = BitVec.ofNat 7 b1.toNat := by
  rw [payloadTypeField, extractLsb'_eq_div, pow_zero, Nat.div_one]

/-- `M` stands in its byte where `S` stands in a FU header, in bit 7. -/
theorem markerFlag_eq_le (b1 : Byte) : markerFlag b1 = decide (128 ≤ b1.toNat) := fuStart_eq_le b1

theorem csrcEnd_eq_mod (p : Bytes) : csrcEnd p = 12 + 4 * ((byteAt p 0).toNat % 16) := by
  rw [csrcEnd, csrcCount_eq_ofNat, BitVec.toNat_ofNat]

theorem toNat_be16 (p : Bytes) (i : Nat) : (be16 p i).toNat = (byteAt p i).toNat * 256 + (byteAt p (i + 1)).toNat := by
  have := (byteAt p i).isLt
  have := (byteAt p (i + 1)).isLt
  rw [be16, BitVec.toNat_ofNat]
  omega

theorem toNat_extProfile (p : Bytes) :
    (extProfile p).toNat =
      if hasExtension p then (byteAt p (csrcEnd p)).toNat * 256 + (byteAt p (csrcEnd p + 1)).toNat else 0 := by
  rw [extProfile, apply_ite BitVec.toNat, toNat_be16, BitVec.toNat_zero]

theorem toNat_extLength (p : Bytes) :
    (extLength p).toNat =
      if hasExtension p then (byteAt p (csrcEnd p + 2)).toNat * 256 + (byteAt p (csrcEnd p + 3)).toNat else 0 := by
  rw [extLength, apply_ite BitVec.toNat, toNat_be16, BitVec.toNat_zero]

theorem toNat_padLen (p : Bytes) :
    (padLen p).toNat = if paddingFlag (byteAt p 0) then (byteAt p (p.length - 1)).toNat else 0 := by
  rw [padLen, apply_ite BitVec.toNat, BitVec.toNat_zero]

theorem slice_eq_drop_take (p : Bytes) (a b : Nat) : slice p a b = (p.take b).drop a := List.drop_take.symm

/-! ### DECODE (R76) -/

theorem exec_cmdDecode {s : State} {p : Bytes} (hl : p.length ≤ s.cfg.pktMax) :
    exec (.cmdDecode p) s =
      .next (if headerFits p then s.finish .ok (.header (headerInfo p)) else s.finish .malformedHeader .nothing) := by
  change execDecode p s = _
  rw [execDecode, if_neg (by omega), parseHeader]
  cases headerFits p <;> rfl

/-- Settles O14: the model's offsets and lengths are the statement's numbers, so its checks are the five of R76
(`headerFits_iff`), and its record is field by field the statement's. -/
theorem decodeAnswers : Obligations.DecodeAnswers := by
  intro s p hl b x pf ps0 xp xl ps pl pe fits
  have hx : hasExtension p = x := hasExtension_eq_div p
  have hpf : paddingFlag (byteAt p 0) = pf := paddingFlag_eq_div (byteAt p 0)
  have hps0 : csrcEnd p = ps0 := csrcEnd_eq_mod p
  have hxp : (extProfile p).toNat = xp := by rw [toNat_extProfile, hx, hps0]; rfl
  have hxl : (extLength p).toNat = xl := by rw [toNat_extLength, hx, hps0]; rfl
  have hps : hdrLen p = ps := by rw [hdrLen, hx, hps0, hxl]
  have hpl : (padLen p).toNat = pl := by rw [toNat_padLen, hpf]; rfl
  have hpe : p.length - pl = pe.toNat := (Int.toNat_sub p.length pl).symm
  have hfits : headerFits p = true ↔ fits := by
    have hsigned : ps + pl ≤ p.length ↔ (ps : Int) ≤ pe := by omega
    rw [headerFits_iff, hps0, hx, hps, hpl, hsigned]
  rw [exec_cmdDecode hl]
  constructor
  · intro hf
    rw [if_pos (hfits.mpr hf), headerInfo, hpl, hpe, hps, hx, hpf, eq_ofNat_of_toNat hxp, eq_ofNat_of_toNat hxl,
      eq_ofNat_of_toNat hpl, versionField_eq_div, csrcCount_eq_ofNat, markerFlag_eq_le, payloadTypeField_eq_ofNat,
      slice_eq_drop_take]
    rfl
  · intro hf
    rw [if_neg (mt hfits.mp hf)]
    rfl

/-! ### The one sequence of headers (R80) -/

/-- The instruction gives its headers this payload type, timestamp and SSRC, and, for ENCODE, this marker. -/
def WritesHeadersOf (i : Instr) (pt : BitVec 7) (m : Bool) (ts ssrc : U32) : Prop :=
  i = .cmdEncode pt m ts ssrc ∨ ∃ ty pre m' e d, i = .cmdEmit ty pre m' e pt ts ssrc d

/-- FEED returns no header and leaves SEQ (R31, R36). -/
theorem feed_writes_no_header {i : Instr} {p : Bytes} (hi : feedPacket i = some p) {s t : State} {r : Response}
    (ht : exec i s = .next t) (hr : t.resp = some r) : t.seq = s.seq ∧ r.packets = [] := by
  rw [exec_feed hi, feedCommandWith] at ht
  split at ht
  · cases ht
  · cases ht
    cases hr
    refine ⟨rfl, ?_⟩
    cases (feedEntry p s.frm _).1 <;> rfl

/-- The response `r` carries the headers of some payloads, written by EMIT's loop `sinkAll` from the SEQ of `s` with the
fields of `i`, and `t` holds the SEQ that loop ends with. -/
def HeadersBySinkAll (i : Instr) (s t : State) (r : Response) : Prop :=
  ∃ ty pt ts ssrc l, t.seq = (sinkAll ty pt ts ssrc l s.seq).2 ∧
    r.packets = (sinkAll ty pt ts ssrc l s.seq).1.map SinkOutput.bytes ∧ ∀ a ∈ l, WritesHeadersOf i pt a.1 ts ssrc

theorem headersBySinkAll_of_no_header {i : Instr} {s t : State} {r : Response} (hseq : t.seq = s.seq)
    (hr : r.packets = []) : HeadersBySinkAll i s t r :=
  ⟨.audio, 0#7, 0#32, 0#32, [], hseq, hr, by simp⟩

/-- Every command but RESET numbers its headers as EMIT's loop does: over no payload where it returns no header, over one
empty payload for ENCODE. -/
theorem exec_headersBySinkAll {i : Instr} {s t : State} {r : Response} (hn : ∀ seq, i ≠ .cmdReset seq)
    (ht : exec i s = .next t) (hr : t.resp = some r) : HeadersBySinkAll i s t r := by
  cases hi : feedPacket i with
  | some p =>
    obtain ⟨hseq, hpkts⟩ := feed_writes_no_header hi ht hr
    exact headersBySinkAll_of_no_header hseq hpkts
  | none =>
    cases i with
    | cmdReset seq => exact absurd rfl (hn seq)
    | cmdEncode pt m ts ssrc =>
      cases ht
      cases hr
      exact ⟨.audio, pt, ts, ssrc, [(m, [])], rfl, rfl, by simp [WritesHeadersOf]⟩
    | cmdEmit ty pre m e pt ts ssrc d =>
      obtain ⟨-, l, rfl, -⟩ := execEmit_next ht
      cases hr
      exact ⟨ty, pt, ts, ssrc, l, rfl, rfl, fun a _ => .inr ⟨ty, pre, m, e, d, rfl⟩⟩
    | cmdDecode p =>
      obtain ⟨-, ⟨-, rfl⟩ | ⟨h, -, rfl⟩⟩ := execDecode_next ht
      · cases hr; exact headersBySinkAll_of_no_header rfl rfl
      · cases hr; exact headersBySinkAll_of_no_header rfl rfl
    | illegalOp5 | illegalOp6 | illegalOp7 | illegal =>
      cases ht; cases hr; exact headersBySinkAll_of_no_header rfl rfl
    | _ => cases hi

/-- Settles O34: the headers are those of EMIT's loop (`exec_headersBySinkAll`), which numbers them from SEQ on; header
`k` is the one ENCODE writes from the SEQ it carries. -/
theorem headersShareOneSequence : Obligations.HeadersShareOneSequence := by
  intro i s t r hn ht hr
  obtain ⟨ty, pt, ts, ssrc, l, hseq, hpkts, hi⟩ := exec_headersBySinkAll hn ht hr
  refine ⟨by rw [hseq, sinkAll_seq, hpkts, List.length_map, sinkAll_length], fun k pkt hk => ?_⟩
  rw [hpkts, List.getElem?_map, sinkAll_getElem?, Option.map_map, Option.map_eq_some_iff] at hk
  obtain ⟨⟨m, payload⟩, hmem, rfl⟩ := hk
  refine ⟨be16_headerBytes .., pt, m, ts, ssrc, fun u hu => ?_, hi _ (List.mem_of_getElem? hmem)⟩
  exact ⟨_, exec_cmdEncode pt m ts ssrc u, by rw [hu]; rfl⟩

end Sys2Proof.Proofs

/-! PROOFS. The deframer statements (41_h264_deframer.md): what FEED answers to a single NAL unit (R85), to a FU-A packet
(R86 to R89) and to an unsupported NAL type (R91), for the rows of the dispatch and for FEED itself. -/

namespace Sys2Proof.Proofs

open Sys2Proof.Machine Sys2Proof.Laws

/-! ### A FEED whose packet reaches the dispatch (R81) -/

/-- FEED of a packet with a valid header and a payload ends as its case does. -/
theorem exec_feed_header {i : Instr} {p : Bytes} {h : HeaderInfo} {s : State} (hi : feedPacket i = some p)
    (hl : p.length ≤ s.cfg.pktMax) (hp : parseHeader p = some h) (hlt : h.ps < h.pe) :
    exec i s = .next (s.finishFeed (feedBody s.cfg p i h s.frm)) := by
  rw [exec_feed hi, feedCommandWith_header hl hp hlt]

/-! ### FEED's own dispatch, by the NAL type's range (R81) -/

theorem feedDispatch_single {p : Bytes} {h : HeaderInfo}
    (ht : 1 ≤ (byteAt p h.ps).toNat % 32 ∧ (byteAt p h.ps).toNat % 32 ≤ 23) (c : Config) (f : FrameRegs) :
    feedDispatch c p h f = feedSingle c p h f := by
  simp only [feedDispatch, nalTypeField_toNat]
  rw [if_pos ht]

theorem feedDispatch_fua {p : Bytes} {h : HeaderInfo} (ht : (byteAt p h.ps).toNat % 32 = 28) (c : Config)
    (f : FrameRegs) : feedDispatch c p h f = feedFua c p h f := by
  simp only [feedDispatch, nalTypeField_toNat]
  rw [if_neg (by omega), if_pos ht]

theorem feedDispatch_unsupported {p : Bytes} {h : HeaderInfo}
    (ht : (byteAt p h.ps).toNat % 32 ∈ [0, 25, 26, 27, 29, 30, 31]) (c : Config) (f : FrameRegs) :
    feedDispatch c p h f = feedUnsupported p h f := by
  simp only [List.mem_cons, List.not_mem_nil, or_false] at ht
  simp only [feedDispatch, nalTypeField_toNat]
  rw [if_neg (by omega), if_neg (by omega), if_neg (by omega)]

/-! ### Unsupported NAL types (R91) -/

theorem feedBody_unsupported {i : Instr} {p : Bytes} {h : HeaderInfo} (c : Config) (f : FrameRegs)
    (hi : i ∈ [Instr.feedUnsupportedT0 p, .feedUnsupportedT25 p, .feedUnsupportedT26to27 p, .feedUnsupportedT29 p,
      .feedUnsupportedT30to31 p, .cmdFeed p])
    (ht : (byteAt p h.ps).toNat % 32 ∈ [0, 25, 26, 27, 29, 30, 31]) :
    feedPacket i = some p ∧ feedBody c p i h f = feedUnsupported p h f := by
  simp only [List.mem_cons, List.not_mem_nil, or_false] at hi
  rcases hi with rfl | rfl | rfl | rfl | rfl | rfl
  iterate 5 exact ⟨rfl, rfl⟩
  exact ⟨rfl, feedDispatch_unsupported ht c f⟩

/-- Settles O23: the case of every row, and of FEED's dispatch on these types, keeps the frame. -/
theorem unsupportedAnswers : Obligations.UnsupportedAnswers := by
  intro s p h i hi hl hp hlt ht
  obtain ⟨hpkt, hbody⟩ := feedBody_unsupported s.cfg s.frm hi ht
  rw [exec_feed_header hpkt hl hp hlt, hbody]
  rfl

/-! ### FrmAppend as a test on numbers (R84) -/

theorem frmAppend_fits {c : Config} {d : Bytes} {f : FrameRegs} (hf : f.len + d.length ≤ c.frameBufMax)
    (hn : c.partsFit (f.parts.length + 1) = true) (t : BitVec 5) (w : Option Bytes)
    (next : FrameRegs → Status × FrameRegs) : frmAppend c t d w f next = next (f.push t d w) :=
  frmAppend_room ((hasRoom_iff c d f).mpr ⟨hf, hn⟩) t w next

theorem frmAppend_overflows {c : Config} {d : Bytes} {f : FrameRegs}
    (hf : ¬ (f.len + d.length ≤ c.frameBufMax ∧ c.partsFit (f.parts.length + 1) = true)) (t : BitVec 5)
    (w : Option Bytes) (next : FrameRegs → Status × FrameRegs) :
    frmAppend c t d w f next = (.frameOverflow, f.discard) :=
  frmAppend_full (Bool.eq_false_iff.mpr (mt (hasRoom_iff c d f).mp hf)) t w next

/-- Where a part has no room, a second one after it has none either, and both overflows leave the same frame: of two
appends only the second need be tested. -/
theorem frmAppend_frmAppend (c : Config) (t t' : BitVec 5) (d d' : Bytes) (w w' : Option Bytes) (f : FrameRegs)
    (next : FrameRegs → Status × FrameRegs) :
    frmAppend c t d w f (fun g => frmAppend c t' d' w' g next) = frmAppend c t' d' w' (f.push t d w) next := by
  by_cases hf : f.len + d.length ≤ c.frameBufMax ∧ c.partsFit (f.parts.length + 1) = true
  · exact frmAppend_fits hf.1 hf.2 ..
  · have hpush : ¬ ((f.push t d w).len + d'.length ≤ c.frameBufMax ∧
        c.partsFit ((f.push t d w).parts.length + 1) = true) := by
      simp only [push_len, push_parts, List.length_append, List.length_singleton]
      exact fun ⟨hlen, hparts⟩ => hf ⟨by omega, partsFit_of_le (by omega) hparts⟩
    rw [frmAppend_overflows hf, frmAppend_overflows hpush]
    rfl

/-! ### A single NAL unit (R85) -/

theorem nalTypeField_eq_ofNat (b : Byte) : nalTypeField b = BitVec.ofNat 5 b.toNat := by
  rw [nalTypeField, extractLsb'_eq_div, pow_zero, Nat.div_one]

theorem feedBody_single {i : Instr} {p : Bytes} {h : HeaderInfo} (c : Config) (f : FrameRegs)
    (hi : i ∈ [Instr.feedSingleT1 p, .feedSingleT2to3 p, .feedSingleT4to7 p, .feedSingleT8to15 p,
      .feedSingleT16to23 p, .cmdFeed p])
    (ht : 1 ≤ (byteAt p h.ps).toNat % 32 ∧ (byteAt p h.ps).toNat % 32 ≤ 23) :
    feedPacket i = some p ∧ feedBody c p i h f = feedSingle c p h f := by
  simp only [List.mem_cons, List.not_mem_nil, or_false] at hi
  rcases hi with rfl | rfl | rfl | rfl | rfl | rfl
  iterate 5 exact ⟨rfl, rfl⟩
  exact ⟨rfl, feedDispatch_single ht c f⟩

/-- Settles O20: the case is one append to a new frame, in which only the buffer can lack room. -/
theorem singleNalAnswers : Obligations.SingleNalAnswers := by
  intro s p h i hi hv hl hp hlt h1 h23 t done
  obtain ⟨hpkt, hbody⟩ := feedBody_single s.cfg s.frm hi ⟨h1, h23⟩
  have hlen : (slice p h.ps h.pe).length = h.pe - h.ps := length_slice _ _ _ (parseHeader_bounds hp).2.2
  have hone : s.cfg.partsFit 1 = true := partsFit_of_le one_le_two (partsFit_two hv)
  rw [exec_feed_header hpkt hl hp hlt, hbody, feedSingle, nalTypeField_eq_ofNat]
  split_ifs with hfit
  · have hdone : ((frmReset h.ssrc h.ts).withNalType t).push t (slice p h.ps h.pe) (some (window p h h.ps)) = done := by
      rw [FrameRegs.push, hlen, withNalType_len, frmReset_len, Nat.zero_add]
      rfl
    rw [frmAppend_fits (by simpa [hlen] using hfit) hone, hdone]
    rfl
  · rw [frmAppend_overflows (fun hroom => hfit (by simpa [hlen] using hroom.1))]
    rfl

/-! ### A FU-A packet (R86 to R89) -/

/-- The row of a FU-A packet by its `S` and `E` (R75). -/
def fuaRow (start fin : Bool) (p : Bytes) : Instr :=
  match start, fin with
  | false, false => .feedFuaMiddle p
  | false, true => .feedFuaEnd p
  | true, false => .feedFuaStart p
  | true, true => .feedFuaSingle p

/-- The frame a fragment joins: with `S = 1` a new frame that holds the rebuilt NAL header (R87), else the frame FRM
holds. -/
def fuaBase (p : Bytes) (h : HeaderInfo) (start : Bool) (f : FrameRegs) : FrameRegs :=
  if start then
    ((frmReset h.ssrc h.ts).withNalType (nalTypeField (byteAt p (h.ps + 1)))).push (nalTypeField (byteAt p (h.ps + 1)))
      [rebuiltHeader (byteAt p h.ps) (byteAt p (h.ps + 1))] none
  else f

/-- The FU-A case with its two appends made one: the fragment joins `fuaBase` (R86, R88, R89). -/
def fuaAnswer (c : Config) (p : Bytes) (h : HeaderInfo) (start fin : Bool) (f : FrameRegs) : Status × FrameRegs :=
  if h.pe - h.ps < 2 then (.malformedPacket, f)
  else fuaFragment c p h (byteAt p (h.ps + 1)) (if fin then .complete else .pending) (fuaBase p h start f)

theorem fuaStartStep_fragment (c : Config) (p : Bytes) (h : HeaderInfo) (st : Status) (f : FrameRegs) :
    fuaStartStep c h (byteAt p h.ps) (byteAt p (h.ps + 1)) (fuaFragment c p h (byteAt p (h.ps + 1)) st) =
      fuaFragment c p h (byteAt p (h.ps + 1)) st (fuaBase p h true f) :=
  frmAppend_frmAppend ..

theorem feedBody_fuaRow (c : Config) (p : Bytes) (h : HeaderInfo) (start fin : Bool) (f : FrameRegs) :
    feedBody c p (fuaRow start fin p) h f = fuaAnswer c p h start fin f := by
  cases start with
  | false => cases fin <;> rfl
  | true =>
    rw [fuaAnswer, ← fuaStartStep_fragment]
    cases fin <;> rfl

theorem feedFua_eq (c : Config) (p : Bytes) (h : HeaderInfo) (f : FrameRegs) :
    feedFua c p h f = fuaAnswer c p h (fuStart (byteAt p (h.ps + 1))) (fuEnd (byteAt p (h.ps + 1))) f := by
  rw [feedFua, fuaHeader, fuaAnswer, fuaStartStep_fragment c p h _ f]
  cases fuStart (byteAt p (h.ps + 1)) <;> rfl

/-- `i` feeds a FU-A packet with these `S` and `E`: as their row, or as FEED itself of a packet that holds them. -/
def FeedsFua (p : Bytes) (h : HeaderInfo) (start fin : Bool) (i : Instr) : Prop :=
  i = fuaRow start fin p ∨
    (i = .cmdFeed p ∧ (byteAt p h.ps).toNat % 32 = 28 ∧ start = fuStart (byteAt p (h.ps + 1)) ∧
      fin = fuEnd (byteAt p (h.ps + 1)))

/-- The case of a FU-A packet, by the form its row, or FEED's dispatch on its `S` and `E`, selects. -/
theorem feedBody_fua {i : Instr} {p : Bytes} {h : HeaderInfo} {start fin : Bool} (c : Config) (f : FrameRegs)
    (hi : FeedsFua p h start fin i) :
    feedPacket i = some p ∧ feedBody c p i h f = fuaAnswer c p h start fin f := by
  rcases hi with rfl | ⟨rfl, ht, rfl, rfl⟩
  · exact ⟨by cases start <;> cases fin <;> rfl, feedBody_fuaRow c p h start fin f⟩
  · exact ⟨rfl, (feedDispatch_fua ht c f).trans (feedFua_eq c p h f)⟩

/-- Settles O21: every form is one append to `fuaBase` (`feedBody_fua`), which is the statement's `base`; the statement's
`done` is what that append leaves when it has room. -/
theorem fuaAnswers : Obligations.FuaAnswers := by
  intro s p h i start fin hi _ hl hp hlt ind fu rt base done
  have hrow : FeedsFua p h start fin i := by
    rw [FeedsFua, fuStart_eq_le, fuEnd_eq_div]
    exact hi.imp_left fun hi => by rw [hi]; cases start <;> cases fin <;> rfl
  obtain ⟨hpkt, hbody⟩ := feedBody_fua s.cfg s.frm hrow
  have hlen : (slice p (h.ps + 2) h.pe).length = h.pe - (h.ps + 2) := length_slice _ _ _ (parseHeader_bounds hp).2.2
  have hrt : nalTypeField (byteAt p (h.ps + 1)) = rt := nalTypeField_eq_ofNat _
  have hbase : fuaBase p h start s.frm = base := by
    rw [fuaBase, hrt, rebuiltHeader_eq]
    rfl
  have hdone : base.push rt (slice p (h.ps + 2) h.pe) (some (window p h (h.ps + 2))) = done := by
    rw [FrameRegs.push, hlen]
    rfl
  have hroom : done.len = base.len + (slice p (h.ps + 2) h.pe).length ∧ done.parts.length = base.parts.length + 1 := by
    rw [← hdone]
    exact ⟨rfl, List.length_append⟩
  rw [exec_feed_header hpkt hl hp hlt, hbody, fuaAnswer, fuaFragment, hrt, hbase, hroom.1, hroom.2]
  refine ⟨?short, ?fits, ?overflow⟩
  case short =>
    intro h2
    rw [if_pos h2]
    rfl
  case fits =>
    intro h2 hf hn
    rw [if_neg (by omega), frmAppend_fits hf hn, hdone]
    cases fin <;> rfl
  case overflow =>
    intro h2 hno
    rw [if_neg (by omega), frmAppend_overflows hno]
    rfl

end Sys2Proof.Proofs

/-! PROOFS. The packetizer statements (42_packetizer.md): what EMIT answers on its pre-formatted path (R95) and on its raw
path (R96). -/

namespace Sys2Proof.Proofs

open Sys2Proof.Machine Sys2Proof.Laws

/-! ### The path EMIT takes (R94) -/

/-- R8's choice of `MAX_PACKET_LEN` leaves room for payload in every packet. -/
theorem chunk_pos {c : Config} (hv : c.valid = true) : 0 < c.chunk := by
  simp only [Config.valid, Bool.and_eq_true, decide_eq_true_eq] at hv
  obtain ⟨⟨⟨hlen, -⟩, -⟩, -⟩ := hv
  exact Nat.sub_pos_of_lt hlen

/-- EMIT with a sink takes the pre-formatted path; for no data that path too sends nothing. -/
theorem exec_cmdEmit_pre {s : State} {d : Bytes} (hl : d.length ≤ s.cfg.emitMax) (ty : RtpType) (m : Bool)
    (pt : BitVec 7) (ts ssrc : U32) :
    exec (.cmdEmit ty true m true pt ts ssrc d) s = .next (s.finishEmit (emitPre ty m pt ts ssrc d s.seq)) := by
  change execEmit ty true m true pt ts ssrc d s = _
  rw [execEmit, if_neg (by omega)]
  cases d with
  | nil => rfl
  | cons b rest => rfl

/-- EMIT of data with a sink takes the raw path, on which R8 rules the fault out. -/
theorem exec_cmdEmit_raw {s : State} {d : Bytes} (hv : s.cfg.valid = true) (hl : d.length ≤ s.cfg.emitMax)
    (hd : d ≠ []) (ty : RtpType) (m : Bool) (pt : BitVec 7) (ts ssrc : U32) :
    exec (.cmdEmit ty false m true pt ts ssrc d) s =
      .next (s.finishEmit (emitRaw s.cfg.chunk ty pt ts ssrc d s.seq)) := by
  have hdata : ¬ (d.length = 0 ∨ true = false) := by simpa using hd
  change execEmit ty false m true pt ts ssrc d s = _
  rw [execEmit, if_neg (by omega), if_neg hdata, if_neg Bool.false_ne_true, if_neg (chunk_pos hv).ne']

/-! ### EMIT.PRE (R95) -/

/-- Settles O31: on the pre-formatted path (`exec_cmdEmit_pre`) the statement's two cases are those of `emitPre`. -/
theorem emitPreformattedAnswers : Obligations.EmitPreformattedAnswers := by
  intro s ty m pt ts ssrc d hl
  rw [exec_cmdEmit_pre hl, emitPre]
  split_ifs
  · rfl
  · rw [sinkAll_cons, seq_add_one_eq_ofNat_mod]
    rfl

/-! ### EMIT.RAW (R96) -/

/-- The packets of `n` indexed payloads: payload `k` gets the header with number SEQ + k, and SEQ ends at SEQ + n (R96). -/
theorem sinkAll_map_range (ty : RtpType) (pt : BitVec 7) (ts ssrc : U32) (n : Nat) (f : Nat → Bool × Bytes) (seq : U16) :
    sinkAll ty pt ts ssrc ((List.range n).map f) seq =
      ((List.range n).map (fun k =>
        ⟨ty, headerBytes pt (f k).1 (BitVec.ofNat 16 (seq.toNat + k)) ts ssrc ++ (f k).2⟩),
       BitVec.ofNat 16 (seq.toNat + n)) := by
  apply Prod.ext
  · apply List.ext_getElem?
    intro k
    rw [sinkAll_getElem?, List.getElem?_map, List.getElem?_map, Option.map_map]
    by_cases hk : k < n
    · rw [List.getElem?_range hk]
      rfl
    · simp [hk]
  · rw [sinkAll_seq, List.length_map, List.length_range]

/-- Settles O32: the raw path (`exec_cmdEmit_raw`) sends the payloads of its split, which `rawSplit_eq` indexes from 0 to
`n`, and `sinkAll_map_range` heads them. -/
theorem emitRawAnswers : Obligations.EmitRawAnswers := by
  intro s ty m pt ts ssrc d hv hl hd chunk n
  rw [exec_cmdEmit_raw hv hl hd, emitRaw, rawSplit_eq (chunk_pos hv) _ d hd le_rfl, sinkAll_map_range]
  rfl

end Sys2Proof.Proofs

/-! PROOFS. The reset statements (70_reset_and_hazards.md): what power-on leaves in each piece of state (R114), and what
RESET answers and restores (R115). -/

namespace Sys2Proof.Proofs

open Sys2Proof.Machine Sys2Proof.Laws

/-! ### The frame view and the power-on state (R31, R114) -/

/-- A state whose view is not valid shows no frame (R31). -/
theorem view_eq_none {s : State} (h : s.viewValid = false) : s.view = none := by
  rw [State.view, h, if_neg Bool.false_ne_true]

@[simp] theorem initial_nalType : FrameRegs.initial.nalType = 0#5 := rfl
@[simp] theorem initial_ssrc : FrameRegs.initial.ssrc = 0#32 := rfl
@[simp] theorem initial_ts : FrameRegs.initial.ts = 0#32 := rfl
@[simp] theorem initial_len : FrameRegs.initial.len = 0 := rfl
@[simp] theorem initial_parts : FrameRegs.initial.parts = [] := rfl

@[simp] theorem powerOn_frm (c : Config) : (State.powerOn c).frm = FrameRegs.initial := rfl
@[simp] theorem powerOn_seq (c : Config) : (State.powerOn c).seq = c.seqInit := rfl
@[simp] theorem powerOn_resp (c : Config) : (State.powerOn c).resp = none := rfl
@[simp] theorem powerOn_viewValid (c : Config) : (State.powerOn c).viewValid = false := rfl

/-- Settles O1: FRM is the initial frame, field by field, and a view that is not valid shows nothing. -/
theorem powerOnState : Obligations.PowerOnState := by
  intro c
  have hview : (State.powerOn c).view = none := view_eq_none (powerOn_viewValid c)
  simp [hview]

/-! ### RESET (R115) -/

/-- RESET is one update of FRM, SEQ and the view, and ends with OK. -/
theorem exec_cmdReset (seq : U16) (s : State) :
    exec (.cmdReset seq) s =
      .next ((((s.withFrm FrameRegs.initial).withSeq seq).withView false).finish .ok .nothing) := rfl

/-- Settles O4: the effect is `exec_cmdReset` written as one record; with `SEQ_INIT` its FRM and SEQ are those of
power-on, and the cleared view bit leaves no view. -/
theorem resetAnswers : Obligations.ResetAnswers := by
  refine ⟨fun s seq => exec_cmdReset seq s, fun s => ⟨_, exec_cmdReset s.cfg.seqInit s, ?frm, ?seq, ?view⟩⟩
  case frm => simp
  case seq => simp
  case view => exact view_eq_none (by simp)

end Sys2Proof.Proofs

/-! PROOFS. The decoder and the encoder as inverses (30_encoding.md R57 to R62, R74, R75): the decoded instruction is well
formed, and an encoded well-formed instruction decodes to itself; and the codes of the statuses (60_exceptions.md R99). -/

namespace Sys2Proof.Proofs

open Sys2Proof.Machine Sys2Proof.Laws

/-! ### Decoding what the encoder writes -/

/-- Every instruction of the FEED command has one and the same encoding, the FEED command of its packet (R62). -/
theorem encode_feed {i : Instr} {p : Bytes} (hi : feedPacket i = some p) : encode i = feedCommand p := by
  cases i <;> cases hi <;> rfl

/-- A row of FEED's dispatch decodes to itself because its packet selects it (R74, R75). -/
theorem decode_encode_feed {i : Instr} {p : Bytes} (hi : feedPacket i = some p) (hw : i.wellFormed = true) :
    decode (encode i) = i := by
  rw [encode_feed hi, decode_feedCommand, feedInstr_eq_of_wf hi hw]

theorem decode_encode_cmdReset (seq : U16) : decode (encode (.cmdReset seq)) = .cmdReset seq := by
  have hseq : (seq.setWidth 32).extractLsb' 0 16 = seq := by
    rw [extractLsb'_eq_div]
    exact BitVec.eq_of_toNat_eq (by have := seq.isLt; simp; omega)
  simp [decode, encode, cmdForm_assemble, Command.seq, hseq]

theorem decode_encode_cmdEncode (pt : BitVec 7) (m : Bool) (ts ssrc : U32) :
    decode (encode (.cmdEncode pt m ts ssrc)) = .cmdEncode pt m ts ssrc := by
  obtain ⟨-, hm, -, -, hpt⟩ := assemble_fields 2 false m false .audio pt ts ssrc [] (by decide)
  rw [rtpTypeCode] at hm hpt
  simp [decode, encode, cmdForm_assemble, hm, hpt]

theorem decode_encode_cmdEmit (ty : RtpType) (pre m sinkEn : Bool) (pt : BitVec 7) (ts ssrc : U32) (d : Bytes) :
    decode (encode (.cmdEmit ty pre m sinkEn pt ts ssrc d)) = .cmdEmit ty pre m sinkEn pt ts ssrc d := by
  obtain ⟨hpre, hm, hsink, hty, hpt⟩ := assemble_fields 4 pre m sinkEn ty pt ts ssrc d (by decide)
  simp [decode, encode, cmdForm_assemble, hpre, hm, hsink, hty, hpt]

/-- Settles O5: the FEED rows by the packet that selects them, each other row by its fields. -/
theorem decodeEncodeAgree : Obligations.DecodeEncodeAgree := by
  intro i hw
  cases hi : feedPacket i with
  | some p => exact decode_encode_feed hi hw
  | none =>
    cases i with
    | cmdReset seq => exact decode_encode_cmdReset seq
    | cmdDecode p => simp [decode, encode, cmdForm_assemble]
    | cmdEncode pt m ts ssrc => exact decode_encode_cmdEncode pt m ts ssrc
    | cmdEmit ty pre m sinkEn pt ts ssrc d => exact decode_encode_cmdEmit ty pre m sinkEn pt ts ssrc d
    | illegalOp5 w => rw [decode, EncodedWord.illegalOp5 w hw]; rfl
    | illegalOp6 w => rw [decode, EncodedWord.illegalOp6 w hw]; rfl
    | illegalOp7 w => rw [decode, EncodedWord.illegalOp7 w hw]; rfl
    | illegal w => rw [decode, EncodedWord.illegal w hw]; rfl
    | _ => cases hi

/-! ### What the decoder answers -/

/-- Settles O6: by the row of `decode_eq`; FEED's row is `feedInstr_wellFormed`, an illegal row has the tests that lead to
it, any other is well formed as it stands. -/
theorem decodedInstrWellFormed : Obligations.DecodedInstrWellFormed := by
  intro c
  have hop : c.cmd.toNat % 8 < 8 := Nat.mod_lt _ (by decide)
  rw [decode_eq]
  split_ifs with h5 h6 h7 hbig h0 h1 h2 h3
  · exact decide_eq_true h5
  · exact decide_eq_true h6
  · exact decide_eq_true h7
  · simp only [Instr.wellFormed, Bool.and_eq_true, decide_eq_true_eq]
    omega
  · rfl
  · rfl
  · rfl
  · exact feedInstr_wellFormed c.operand
  · rfl

/-- Settles O10: the tables of the opcode words evaluated on seven words. -/
theorem sampleWordsDecode : Obligations.SampleWordsDecode := by
  refine ⟨?_, ?_, ?_, ?_, ?_, ?_, ?_⟩ <;> decide

/-! ### The codes of the statuses (R99) -/

/-- The statuses in the order of R99's table. -/
def statusTable : List Status :=
  [.ok, .complete, .pending, .malformedPacket, .malformedHeader, .malformedAggregation, .unsupportedNaluType,
    .frameOverflow, .illegalCommand]

/-- A code is the place of its status in R99's table. -/
theorem statusTable_getD_code (st : Status) : statusTable.getD st.code.toNat .ok = st := by
  cases st <;> rfl

/-- Settles O11: the codes as the table lists them; the table gives the status of a code back. -/
theorem statusCodes : Obligations.StatusCodes := by
  refine ⟨by decide, fun a b h => ?_⟩
  rw [← statusTable_getD_code a, h, statusTable_getD_code]

end Sys2Proof.Proofs

/-! PROOFS. The statements over all commands: what a command can answer, said once (`ExecAnswer`); who writes each register
(10_state.md R36), the frame view (R31), what each error leaves (60_exceptions.md R100), the refusals (20_memory.md R40),
and the invariant that every step keeps. -/

namespace Sys2Proof.Proofs

open Sys2Proof.Machine Sys2Proof.Laws

/-! ### What a command can answer -/

/-- The instruction is an illegal command word (R61). -/
def IsIllegal (i : Instr) : Prop :=
  ∃ w, i = .illegalOp5 w ∨ i = .illegalOp6 w ∨ i = .illegalOp7 w ∨ i = .illegal w

/-- Every next state a command can answer from `s`: a FEED ends before its dispatch with FRM unchanged (R81) or with its
case, any other command by its own rule. -/
inductive ExecAnswer (s : State) : Instr → State → Prop
  | feedRejected {i : Instr} {p : Bytes} (hi : feedPacket i = some p) {st : Status}
      (hst : st = .malformedPacket ∨ st = .malformedHeader) : ExecAnswer s i (s.finishFeed (st, s.frm))
  | feedCase {i : Instr} {p : Bytes} {h : HeaderInfo} (hi : feedPacket i = some p) (hl : p.length ≤ s.cfg.pktMax)
      (hp : parseHeader p = some h) (hlt : h.ps < h.pe) : ExecAnswer s i (s.finishFeed (feedBody s.cfg p i h s.frm))
  | reset (seq : U16) :
      ExecAnswer s (.cmdReset seq) ((((s.withFrm .initial).withSeq seq).withView false).finish .ok .nothing)
  | malformed (p : Bytes) (hp : parseHeader p = none) : ExecAnswer s (.cmdDecode p) (s.finish .malformedHeader .nothing)
  | record (p : Bytes) (h : HeaderInfo) (hp : parseHeader p = some h) :
      ExecAnswer s (.cmdDecode p) (s.finish .ok (.header h))
  | encoded (pt : BitVec 7) (m : Bool) (ts ssrc : U32) :
      ExecAnswer s (.cmdEncode pt m ts ssrc)
        ((s.withSeq (s.seq + 1#16)).finish .ok (.encoded (headerBytes pt m s.seq ts ssrc)))
  | emitted (ty : RtpType) (pre m k : Bool) (pt : BitVec 7) (ts ssrc : U32) (d : Bytes) (r : List SinkOutput × U16) :
      ExecAnswer s (.cmdEmit ty pre m k pt ts ssrc d) (s.finishEmit r)
  | illegal {i : Instr} (hi : IsIllegal i) : ExecAnswer s i (s.finish .illegalCommand .nothing)

theorem exec_feed_answer {i : Instr} {p : Bytes} (hi : feedPacket i = some p) {s t : State}
    (ht : exec i s = .next t) : ExecAnswer s i t := by
  rw [exec_feed hi] at ht
  obtain ⟨hl, ⟨-, rfl | rfl⟩ | ⟨h, hp, hlt, rfl⟩⟩ := feedCommandWith_next ht
  · exact .feedRejected hi (.inl rfl)
  · exact .feedRejected hi (.inr rfl)
  · exact .feedCase hi hl hp hlt

/-- What a command answers as a next state is one of `ExecAnswer`'s cases. -/
theorem exec_answer {i : Instr} {s t : State} (ht : exec i s = .next t) : ExecAnswer s i t := by
  cases hi : feedPacket i with
  | some p => exact exec_feed_answer hi ht
  | none =>
    cases i with
    | cmdReset seq => cases ht; exact .reset seq
    | cmdDecode p =>
      obtain ⟨-, ⟨hp, rfl⟩ | ⟨h, hp, rfl⟩⟩ := execDecode_next ht
      · exact .malformed p hp
      · exact .record p h hp
    | cmdEncode pt m ts ssrc => cases ht; exact .encoded pt m ts ssrc
    | cmdEmit ty pre m k pt ts ssrc d =>
      obtain ⟨-, l, rfl, -⟩ := execEmit_next ht
      exact .emitted ..
    | illegalOp5 w | illegalOp6 w | illegalOp7 w | illegal w =>
      cases ht
      exact .illegal ⟨w, by simp⟩
    | _ => cases hi

theorem not_feed_or_reset_of_isIllegal {i : Instr} (hi : IsIllegal i) : feedPacket i = none ∧ ∀ seq, i ≠ .cmdReset seq := by
  obtain ⟨w, rfl | rfl | rfl | rfl⟩ := hi <;> exact ⟨rfl, nofun⟩

/-! ### The invariant (R24, R31, R38, R82) -/

theorem good_iff (s : State) :
    s.good = true ↔ s.cfg.valid = true ∧ Memory.wf s.cfg s.frm = true ∧ s.responseFits = true := by
  simp [State.good, and_assoc]

/-- The end of a FEED makes its response fit: the frame view goes with COMPLETE and with nothing else (R31). -/
theorem responseFits_finishFeed (s : State) (r : Status × FrameRegs) : (s.finishFeed r).responseFits = true := by
  obtain ⟨st, f⟩ := r
  cases st <;> simp [State.responseFits, feedResult]

/-- What any command answers from a state with the memory in its form is a good state. -/
theorem answer_good {i : Instr} {s t : State} (hv : s.cfg.valid = true) (hm : Memory.wf s.cfg s.frm = true)
    (ha : ExecAnswer s i t) : t.good = true := by
  rw [good_iff]
  cases ha with
  | feedRejected hi hst => exact ⟨hv, hm, responseFits_finishFeed ..⟩
  | feedCase hi hl hp hlt =>
    exact ⟨hv, (feedBody_facts s.cfg hi hp hlt s.frm).wf hp hlt hl hm, responseFits_finishFeed ..⟩
  | reset seq => exact ⟨hv, memory_wf_empty s.cfg rfl rfl, rfl⟩
  | malformed | record | encoded | emitted | illegal => exact ⟨hv, hm, rfl⟩

/-- Settles O2: taking the next command leaves the rest to issue. -/
theorem stepRunsNextCommand : Obligations.StepRunsNextCommand := by
  intro s c rest hc
  rw [step, State.takeCommand, hc]

/-- Settles O3: with nothing to take the step is idle. -/
theorem idleStepKeepsState : Obligations.IdleStepKeepsState := by
  intro s hc
  rw [step, State.takeCommand, hc]

/-- Settles O38: an idle step keeps the state; any other ends in an answer of its command, which is good. -/
theorem stepKeepsGood : Obligations.StepKeepsGood := by
  intro s t hs ht
  cases hc : s.issued with
  | nil =>
    rw [idleStepKeepsState s hc] at ht
    cases ht
    exact hs
  | cons c rest =>
    rw [stepRunsNextCommand s c rest hc] at ht
    obtain ⟨hv, hm, -⟩ := (good_iff s).mp hs
    exact answer_good (s := s.withIssued rest) hv hm (exec_answer ht)

/-- Settles O39: power-on holds no part, so its memory has the canonical form, and no response. -/
theorem powerOnGood : Obligations.PowerOnGood := by
  refine ⟨fun c hv => (good_iff _).mpr ⟨hv, memory_wf_empty c rfl rfl, rfl⟩, rfl, by decide⟩

/-! ### Who writes what (R36), and the frame view (R31) -/

/-- Settles O36: by the writes of each answer; where FRM is kept, so are the bytes read from it. -/
theorem writersOfEachRegister : Obligations.WritersOfEachRegister := by
  intro i s t ht
  cases exec_answer ht with
  | feedRejected hi | feedCase hi =>
    exact ⟨rfl, rfl, fun hn => absurd (hi.symm.trans hn) (by simp), fun _ _ _ => rfl⟩
  | reset seq => exact ⟨rfl, rfl, fun _ hn => absurd rfl (hn seq), fun hn => absurd rfl (hn seq)⟩
  | encoded pt m ts ssrc =>
    exact ⟨rfl, rfl, fun _ _ => ⟨rfl, rfl, fun _ => rfl, fun _ _ => rfl⟩, fun _ hn => absurd rfl (hn pt m ts ssrc)⟩
  | emitted ty pre m k pt ts ssrc d r =>
    exact ⟨rfl, rfl, fun _ _ => ⟨rfl, rfl, fun _ => rfl, fun _ _ => rfl⟩,
      fun _ _ hn => absurd rfl (hn ty pre m k pt ts ssrc d)⟩
  | malformed | record | illegal =>
    exact ⟨rfl, rfl, fun _ _ => ⟨rfl, rfl, fun _ => rfl, fun _ _ => rfl⟩, fun _ _ _ => rfl⟩

/-- A FEED's answer comes with the view exactly when it is COMPLETE (R31). -/
theorem finishFeed_view (s : State) (r : Status × FrameRegs) :
    ((s.finishFeed r).resp = some ⟨.complete, .frame r.2⟩ ∧ (s.finishFeed r).view = some r.2) ∨
    (∃ st, st ≠ Status.complete ∧ (s.finishFeed r).resp = some ⟨st, .nothing⟩ ∧ (s.finishFeed r).view = none) := by
  obtain ⟨st, f⟩ := r
  by_cases hst : st = .complete
  · subst hst
    exact .inl ⟨rfl, rfl⟩
  · refine .inr ⟨st, hst, ?_, view_eq_none (by simpa using hst)⟩
    rw [finishFeed_resp, feedResult_of_ne hst]

/-- Settles O25: a FEED ends by `finishFeed_view`, RESET clears the view's bit, and the rest keep the bit and FRM. -/
theorem frameViewValidity : Obligations.FrameViewValidity := by
  intro i s t ht
  cases exec_answer ht with
  | feedRejected hi | feedCase hi =>
    refine ⟨fun _ _ => finishFeed_view s _, ?_, fun hn => absurd (hi.symm.trans hn) (by simp)⟩
    rintro seq rfl
    cases hi
  | reset seq => exact ⟨nofun, fun _ _ => rfl, fun _ hn => absurd rfl (hn seq)⟩
  | malformed | record | encoded | emitted => exact ⟨nofun, nofun, fun _ _ => rfl⟩
  | illegal hi =>
    obtain ⟨hfeed, hreset⟩ := not_feed_or_reset_of_isIllegal hi
    exact ⟨fun p hp => absurd (hfeed.symm.trans hp) (by simp), fun seq hseq => absurd hseq (hreset seq), fun _ _ => rfl⟩

/-! ### What each error leaves (R100) -/

/-- The clauses of R100's table after FrameOverflow, by the row the FEED runs. -/
theorem overflowLeaves_cases {p : Bytes} {h : HeaderInfo} {f g : FrameRegs} {row : Instr}
    (hrow : feedPacket row = some p) (hg : overflowLeaves p h f row = some g) :
    (row ∈ [Instr.feedFuaMiddle p, .feedFuaEnd p] ∧ g = { f with len := 0, parts := [] }) ∨
    (row ∈ [Instr.feedFuaStart p, .feedFuaSingle p] ∧
      g = { nalType := BitVec.ofNat 5 (byteAt p (h.ps + 1)).toNat, ssrc := h.ssrc, ts := h.ts, len := 0, parts := [] }) ∨
    (row ∈ [Instr.feedSingleT1 p, .feedSingleT2to3 p, .feedSingleT4to7 p, .feedSingleT8to15 p,
        .feedSingleT16to23 p] ∧
      g = { nalType := BitVec.ofNat 5 (byteAt p h.ps).toNat, ssrc := h.ssrc, ts := h.ts, len := 0, parts := [] }) ∨
    (row = .feedStapa p ∧ g = { nalType := 24#5, ssrc := h.ssrc, ts := h.ts, len := 0, parts := [] }) := by
  simp only [← nalTypeField_eq_ofNat]
  cases row with
  | feedFuaMiddle | feedFuaEnd => cases hrow; cases hg; exact .inl ⟨by simp, rfl⟩
  | feedFuaStart | feedFuaSingle => cases hrow; cases hg; exact .inr (.inl ⟨by simp, rfl⟩)
  | feedSingleT1 | feedSingleT2to3 | feedSingleT4to7 | feedSingleT8to15 | feedSingleT16to23 =>
    cases hrow; cases hg; exact .inr (.inr (.inl ⟨by simp, rfl⟩))
  | feedStapa => cases hrow; cases hg; exact .inr (.inr (.inr ⟨rfl, rfl⟩))
  | _ => cases hg

theorem ne_complete_of_isError {st : Status} (h : st.isError = true) : st ≠ .complete := by
  rintro rfl
  cases h

/-- FEED's dispatch raises neither IllegalCommand nor MalformedHeader. -/
theorem ne_of_caseStatus {st : Status} (h : st ∈ [Status.complete, .pending, .malformedPacket, .malformedAggregation,
    .unsupportedNaluType, .frameOverflow]) : st ≠ .illegalCommand ∧ st ≠ .malformedHeader := by
  constructor <;> rintro rfl <;> exact absurd h (by decide)

/-- Settles O24: an error of FEED's case by `feedBody_facts`, whose overflow clause is `overflowLeaves_cases`; the errors
before FEED's dispatch, of DECODE and of an illegal word write nothing. -/
theorem errorsLeaveState : Obligations.ErrorsLeaveState := by
  intro i s t r ht hr herr
  cases exec_answer ht with
  | feedRejected hi hst =>
    cases hr
    rcases hst with rfl | rfl <;> exact ⟨rfl, rfl, rfl, nofun, fun _ => rfl, nofun, nofun⟩
  | @feedCase _ p h hi hl hp hlt =>
    have hfacts := feedBody_facts s.cfg hi hp hlt s.frm
    cases hr
    generalize feedBody s.cfg p i h s.frm = a at hfacts herr ⊢
    obtain ⟨hstatus, hkept, hagg, hovf, -⟩ := hfacts
    refine ⟨feedResult_of_ne (ne_complete_of_isError herr) a.2, rfl, rfl, ?notIllegal, ?kept,
      fun hst => ⟨p, h, hi, hp, hagg hst⟩,
      fun hst => ⟨p, h, hi, hp, overflowLeaves_cases (feedPacket_feedRow hi) (hovf hst)⟩⟩
    case notIllegal => exact fun hst => absurd hst (ne_of_caseStatus hstatus).1
    case kept =>
      intro hst
      refine hkept ?_
      simp only [List.mem_cons, List.not_mem_nil, or_false] at hst
      rcases hst with hst | hst | hst | hst
      · exact absurd hst (ne_of_caseStatus hstatus).1
      · exact .inl hst
      · exact absurd hst (ne_of_caseStatus hstatus).2
      · exact .inr hst
  | reset | record | encoded | emitted => cases hr; cases herr
  | malformed => cases hr; exact ⟨rfl, rfl, rfl, nofun, fun _ => rfl, nofun, nofun⟩
  | illegal hi => cases hr; exact ⟨rfl, rfl, rfl, fun _ => rfl, fun _ => rfl, nofun, nofun⟩

/-! ### The refusals, and completion (R40, R103) -/

theorem operandRefusal_feed {i : Instr} {p : Bytes} (hi : feedPacket i = some p) (c : Config) :
    operandRefusal c i = if c.pktMax < p.length then some .packetOperandTooLong else none := by
  simp only [operandRefusal, hi]

theorem exec_feed_refused_iff {i : Instr} {p : Bytes} (hi : feedPacket i = some p) (s : State) (r : Refusal) :
    exec i s = .refused r ↔ operandRefusal s.cfg i = some r := by
  rw [exec_feed hi, feedCommandWith, operandRefusal_feed hi]
  split_ifs <;> simp

theorem execDecode_refused_iff (p : Bytes) (s : State) (r : Refusal) :
    execDecode p s = .refused r ↔ operandRefusal s.cfg (.cmdDecode p) = some r := by
  simp only [execDecode, operandRefusal, feedPacket]
  split_ifs
  · simp
  · cases parseHeader p <;> simp

theorem execEmit_refused_iff (ty : RtpType) (pre m k : Bool) (pt : BitVec 7) (ts ssrc : U32) (d : Bytes) (s : State)
    (r : Refusal) :
    execEmit ty pre m k pt ts ssrc d s = .refused r ↔
      operandRefusal s.cfg (.cmdEmit ty pre m k pt ts ssrc d) = some r := by
  simp only [execEmit, operandRefusal, feedPacket]
  split_ifs <;> simp

/-- A command is refused exactly when its operand is too long. -/
theorem exec_refused_iff (i : Instr) (s : State) (r : Refusal) :
    exec i s = .refused r ↔ operandRefusal s.cfg i = some r := by
  cases hi : feedPacket i with
  | some p => exact exec_feed_refused_iff hi s r
  | none =>
    cases i with
    | cmdDecode p => exact execDecode_refused_iff p s r
    | cmdEmit ty pre m k pt ts ssrc d => exact execEmit_refused_iff ty pre m k pt ts ssrc d s r
    | cmdReset | cmdEncode | illegalOp5 | illegalOp6 | illegalOp7 | illegal => exact ⟨nofun, nofun⟩
    | _ => cases hi

/-- Settles O13: a step of a refused command is refused (`exec_refused_iff`), and a run stops at its first refusal. -/
theorem oversizedOperandRefused : Obligations.OversizedOperandRefused := by
  refine ⟨exec_refused_iff, fun s c rest r n hc hr => run_refused ?_ n⟩
  rw [stepRunsNextCommand s c rest hc]
  exact (exec_refused_iff (decode c) (s.withIssued rest) r).mpr hr

theorem execEmit_ne_fault {s : State} (hv : s.cfg.valid = true) (ty : RtpType) (pre m k : Bool) (pt : BitVec 7)
    (ts ssrc : U32) (d : Bytes) (e : Fault) : execEmit ty pre m k pt ts ssrc d s ≠ .fault e := by
  have hchunk := (chunk_pos hv).ne'
  unfold execEmit
  split_ifs <;> exact nofun

/-- Under R8's choice of the parameters no command faults. -/
theorem exec_ne_fault {s : State} (hv : s.cfg.valid = true) (i : Instr) (e : Fault) : exec i s ≠ .fault e := by
  cases hi : feedPacket i with
  | some p =>
    rw [exec_feed hi, feedCommandWith]
    split_ifs <;> exact nofun
  | none =>
    cases i with
    | cmdDecode p =>
      change execDecode p s ≠ _
      unfold execDecode
      split_ifs
      · exact nofun
      · cases parseHeader p <;> exact nofun
    | cmdEmit ty pre m k pt ts ssrc d => exact execEmit_ne_fault hv ty pre m k pt ts ssrc d e
    | cmdReset | cmdEncode | illegalOp5 | illegalOp6 | illegalOp7 | illegal => exact nofun
    | _ => cases hi

/-- An answer carries a response (R28). -/
theorem answer_resp {i : Instr} {s t : State} (ha : ExecAnswer s i t) : ∃ r, t.resp = some r := by
  cases ha <;> exact ⟨_, rfl⟩

/-- Settles O12: a command that neither faults nor is refused answers, with a response whose status R99 allows it. -/
theorem everyCommandAnswers : Obligations.EveryCommandAnswers := by
  intro i s hv ho
  cases ht : exec i s with
  | next t =>
    obtain ⟨r, hr⟩ := answer_resp (exec_answer ht)
    exact ⟨t, r, rfl, hr, exec_status_allowed ht hr⟩
  | fault e => exact absurd ht (exec_ne_fault hv i e)
  | refused r =>
    rw [(exec_refused_iff i s r).mp ht] at ho
    cases ho

/-! ### Who reads what (R19) -/

/-- A FEED's answer is a function of the parameters and FRM, put into the state. -/
theorem exec_feed_next {i : Instr} {p : Bytes} (hi : feedPacket i = some p) {s t : State} (ht : exec i s = .next t) :
    t = s.finishFeed (feedEntry p s.frm (fun h => feedBody s.cfg p i h s.frm)) := by
  rw [exec_feed hi, feedCommandWith] at ht
  split at ht
  · cases ht
  · cases ht; rfl

theorem execDecode_seq {p : Bytes} {s t : State} (ht : execDecode p s = .next t) : t.seq = s.seq := by
  obtain ⟨-, ⟨-, rfl⟩ | ⟨h, -, rfl⟩⟩ := execDecode_next ht <;> rfl

/-- DECODE's response is a function of its packet. -/
theorem execDecode_resp {p : Bytes} {s t : State} (ht : execDecode p s = .next t) :
    t.resp = some (if headerFits p then ⟨.ok, .header (headerInfo p)⟩ else ⟨.malformedHeader, .nothing⟩) := by
  have hl := (execDecode_next ht).1
  cases (exec_cmdDecode hl).symm.trans ht
  split <;> rfl

theorem execEmit_eq_of_seq_eq {ty : RtpType} {pre m k : Bool} {pt : BitVec 7} {ts ssrc : U32} {d : Bytes}
    {s t s' t' : State} (hc : s.cfg = s'.cfg) (hs : s.seq = s'.seq) (ht : execEmit ty pre m k pt ts ssrc d s = .next t)
    (ht' : execEmit ty pre m k pt ts ssrc d s' = .next t') : t.seq = t'.seq ∧ t.resp = t'.resp := by
  unfold execEmit at ht ht'
  rw [← hc, ← hs] at ht'
  split_ifs at ht ht' <;> cases ht <;> cases ht' <;> exact ⟨rfl, rfl⟩

/-- A command other than FEED reads of the state the parameters and SEQ only. -/
theorem exec_eq_of_seq_eq {i : Instr} (hi : feedPacket i = none) {s t s' t' : State} (hc : s.cfg = s'.cfg)
    (hs : s.seq = s'.seq) (ht : exec i s = .next t) (ht' : exec i s' = .next t') : t.seq = t'.seq ∧ t.resp = t'.resp := by
  cases i with
  | cmdDecode p =>
    exact ⟨by rw [execDecode_seq ht, execDecode_seq ht', hs], by rw [execDecode_resp ht, execDecode_resp ht']⟩
  | cmdEmit ty pre m k pt ts ssrc d => exact execEmit_eq_of_seq_eq hc hs ht ht'
  | cmdEncode => cases ht; cases ht'; simp [hs]
  | cmdReset => cases ht; cases ht'; exact ⟨rfl, rfl⟩
  | illegalOp5 | illegalOp6 | illegalOp7 | illegal => cases ht; cases ht'; exact ⟨hs, rfl⟩
  | _ => cases hi

/-- Settles O37: FEED's answer by `exec_feed_next`, the others' by `exec_eq_of_seq_eq`. -/
theorem unitsReadOnlyTheirState : Obligations.UnitsReadOnlyTheirState := by
  intro i s t s' t' hc ht ht'
  refine ⟨fun p hi hf => ?_, fun hi hs => exec_eq_of_seq_eq hi hc hs ht ht', ?_⟩
  · rw [exec_feed_next hi ht, exec_feed_next hi ht', ← hc, ← hf]
    exact ⟨rfl, rfl⟩
  · rintro p rfl
    rw [execDecode_resp ht, execDecode_resp ht']

end Sys2Proof.Proofs

/-! PROOFS. DECODE's record as a piece of its packet (30_encoding.md R67) and as the inverse of ENCODE (40_rtp_header.md
R78), and what EMIT sends: nothing (42_packetizer.md R94), a part's window (R82, R95), and the whole data on the raw path
(R96, R98). -/

namespace Sys2Proof.Proofs

open Sys2Proof.Machine Sys2Proof.Laws

/-! ### DECODE's record (R67) -/

/-- Settles O15: the record is the parse of the packet, whose offsets `parseHeader_bounds` and `hdrLen_le` bound, and its
payload is the slice between them. -/
theorem decodePayloadInPacket : Obligations.DecodePayloadInPacket := by
  intro s t p h ht hr
  obtain ⟨-, ⟨-, rfl⟩ | ⟨h, hp, rfl⟩⟩ := execDecode_next ht <;> cases hr
  obtain ⟨h12, hle, hpe⟩ := parseHeader_bounds hp
  have hps : h.ps ≤ 262216 := by
    obtain ⟨-, rfl⟩ := parseHeader_some hp
    exact hdrLen_le p
  have hlen : h.payload.length = h.pe - h.ps := by rw [parseHeader_payload hp, length_slice _ _ _ hpe]
  refine ⟨h12, hle, hpe, hps, hlen, fun k hk => ?_⟩
  rw [parseHeader_payload hp, getElem?_slice, if_pos (by omega)]

/-! ### DECODE of what ENCODE wrote (R78) -/

/-- The marker and the payload type stand in byte 1 (R68). -/
theorem marker_and_type_of_byte1 (m : Bool) (pt : BitVec 7) :
    markerFlag (BitVec.ofNat 8 (m.toNat * 0x80 + pt.toNat)) = m ∧
      payloadTypeField (BitVec.ofNat 8 (m.toNat * 0x80 + pt.toNat)) = pt := by
  have hpt := pt.isLt
  have hm := m.toNat_le
  have hbyte : (BitVec.ofNat 8 (m.toNat * 0x80 + pt.toNat)).toNat = m.toNat * 0x80 + pt.toNat := by
    rw [BitVec.toNat_ofNat]; omega
  refine ⟨?_, ?_⟩
  · rw [markerFlag_eq_le, hbyte]
    cases m
    · simpa using hpt
    · simp
  · rw [payloadTypeField_eq_ofNat, hbyte]
    apply BitVec.eq_of_toNat_eq
    rw [BitVec.toNat_ofNat]
    omega

/-- `be32` reads back what `u32be` wrote (R14). -/
theorem be32_of_u32be {p : Bytes} {i : Nat} {v : U32}
    (h : [byteAt p i, byteAt p (i + 1), byteAt p (i + 2), byteAt p (i + 3)] = u32be v) : be32 p i = v := by
  rw [u32be_eq_div] at h
  simp only [List.cons.injEq, and_true] at h
  obtain ⟨h0, h1, h2, h3⟩ := h
  have := v.isLt
  apply BitVec.eq_of_toNat_eq
  rw [be32, h0, h1, h2, h3]
  simp only [BitVec.toNat_ofNat]
  omega

/-- A first byte 0x80: version 2, and nothing optional in the header (R63). -/
theorem flags_of_version2 :
    versionField 0x80#8 = 2#2 ∧ paddingFlag 0x80#8 = false ∧ extensionFlag 0x80#8 = false ∧ csrcCount 0x80#8 = 0#4 := by
  decide

/-- The parse of a packet whose first byte is 0x80: its header is the 12 fixed bytes. -/
theorem parseHeader_plain {p : Bytes} (h12 : 12 ≤ p.length) (hb0 : byteAt p 0 = 0x80#8) :
    parseHeader p = some
      { v := 2#2, pf := false, pl := 0#8, x := false, xp := 0#16, xl := 0#16, cc := 0#4, m := markerFlag (byteAt p 1),
        pt := payloadTypeField (byteAt p 1), sn := be16 p 2, ts := be32 p 4, ssrc := be32 p 8, ps := 12, pe := p.length,
        payload := p.drop 12 } := by
  obtain ⟨hv, hpf, hext, hcc⟩ := flags_of_version2
  have hx : hasExtension p = false := by rw [hasExtension, hb0, hext]
  have hcsrc : csrcEnd p = 12 := by rw [csrcEnd, hb0, hcc]; rfl
  have hps : hdrLen p = 12 := by simp [hdrLen, hx, hcsrc]
  have hpad : padLen p = 0#8 := by simp [padLen, hb0, hpf]
  have hfits : headerFits p = true := by
    rw [headerFits_iff, hx, hcsrc, hps, hpad]
    exact ⟨h12, h12, nofun, h12, h12⟩
  have hpayload : slice p 12 p.length = p.drop 12 := List.take_of_length_le (by simp)
  rw [parseHeader, if_pos hfits, headerInfo, extProfile, extLength, hps, hpad, hx, hb0, hv, hpf, hcc,
    BitVec.toNat_ofNat, Nat.zero_mod, Nat.sub_zero, hpayload]
  rfl

/-- The parse of a header ENCODE wrote, with any payload after it. -/
theorem parseHeader_headerBytes (pt : BitVec 7) (m : Bool) (sn : U16) (ts ssrc : U32) (payload : Bytes) :
    parseHeader (headerBytes pt m sn ts ssrc ++ payload) = some
      { v := 2#2, pf := false, pl := 0#8, x := false, xp := 0#16, xl := 0#16, cc := 0#4, m := m, pt := pt,
        sn := sn, ts := ts, ssrc := ssrc, ps := 12, pe := 12 + payload.length, payload := payload } := by
  obtain ⟨hm, hpt⟩ := marker_and_type_of_byte1 m pt
  have hb1 : byteAt (headerBytes pt m sn ts ssrc ++ payload) 1 = BitVec.ofNat 8 (m.toNat * 0x80 + pt.toNat) := rfl
  have hts : be32 (headerBytes pt m sn ts ssrc ++ payload) 4 = ts := be32_of_u32be rfl
  have hssrc : be32 (headerBytes pt m sn ts ssrc ++ payload) 8 = ssrc := be32_of_u32be rfl
  have hlen : (headerBytes pt m sn ts ssrc ++ payload).length = 12 + payload.length := by
    rw [List.length_append, length_headerBytes]
  rw [parseHeader_plain (by omega) rfl, hb1, hm, hpt, be16_headerBytes, hts, hssrc, hlen,
    List.drop_left' (length_headerBytes ..)]

/-- Settles O17: ENCODE writes `headerBytes` of the SEQ it held, which DECODE parses back. -/
theorem decodeInvertsEncode : Obligations.DecodeInvertsEncode := by
  intro s t pt m ts ssrc hdr payload ht hr hl
  cases ht
  cases hr
  change execDecode (headerBytes pt m s.seq ts ssrc ++ payload) _ = _
  rw [execDecode, if_neg (by simp; omega), parseHeader_headerBytes]
  rfl

/-! ### What EMIT sends -/

/-- Settles O30: on this path EMIT writes SEQ back as it was. -/
theorem emitWithoutDataOrSink : Obligations.EmitWithoutDataOrSink := by
  intro s ty pre m sinkEn pt ts ssrc d hl hd
  have hnone : d.length = 0 ∨ sinkEn = false := hd.imp_left fun hd => by rw [hd]; rfl
  change execEmit ty pre m sinkEn pt ts ssrc d s = _
  rw [execEmit, if_neg (by omega), if_pos hnone]
  rfl

/-- Settles O33: the raw path sends the payloads of its split (`exec_cmdEmit_raw`), which are the data in order
(`rawSplit_facts`), each after 12 header bytes (`sinkAll_facts`). -/
theorem emitRawCarriesData : Obligations.EmitRawCarriesData := by
  intro s t ty m pt ts ssrc d outs hv hd ht hr
  have hl : d.length ≤ s.cfg.emitMax := (execEmit_next ht).1
  have hchunk : s.cfg.chunk = s.cfg.maxPacketLen - 12 := rfl
  have hpos := chunk_pos hv
  rw [exec_cmdEmit_raw hv hl hd] at ht
  cases ht
  cases hr
  obtain ⟨hsplit, hsize⟩ := rawSplit_facts hpos d.length d hd le_rfl
  obtain ⟨hbytes, houts⟩ := sinkAll_facts ty pt ts ssrc (rawSplit s.cfg.chunk d.length d) s.seq
  refine ⟨hbytes.trans hsplit, fun o ho => ?_⟩
  obtain ⟨hty, a, ha, hlen⟩ := houts o ho
  have := hsize a ha
  exact ⟨hty, by omega, by omega⟩

/-- A window that fits its part is 12 bytes of header room and then the part's data (R82). -/
theorem windowFits_some {c : Config} {part : Part} {w : Bytes} (hw : part.rtp = some w)
    (hf : windowFits c part = true) : 12 ≤ w.length ∧ w.drop 12 = part.data := by
  rw [windowFits, hw] at hf
  simp only [Bool.and_eq_true, decide_eq_true_eq, beq_iff_eq] at hf
  obtain ⟨⟨hroom, -⟩, hdata⟩ := hf
  exact ⟨hroom, hdata⟩

/-- Settles O35: in a good state the window fits its part, so the pre-formatted path sends the part's data. -/
theorem windowRetransmitsPart : Obligations.WindowRetransmitsPart := by
  intro s part w ty m pt ts ssrc hs hpart hw hl
  obtain ⟨-, hm, -⟩ := (good_iff s).mp hs
  obtain ⟨-, -, -, hfits⟩ := (memory_wf_iff s.cfg s.frm).mp hm
  obtain ⟨hroom, hdata⟩ := windowFits_some hw (hfits part hpart)
  have hseq : BitVec.ofNat 16 ((s.seq.toNat + 1) % 65536) = BitVec.ofNat 16 (s.seq.toNat + 1) :=
    BitVec.eq_of_toNat_eq (by simp)
  rw [emitPreformattedAnswers s ty m pt ts ssrc w hl, if_neg (by omega), hdata, hseq]

end Sys2Proof.Proofs

/-! PROOFS. FEED before and at its dispatch (41_h264_deframer.md R81), the windows (R82), and FEED.STAPA (R90). -/

namespace Sys2Proof.Proofs

open Sys2Proof.Machine Sys2Proof.Laws

/-! ### FEED's entry (R81, R102) -/

/-- A FEED within `PKT_MAX` ends with what its entry, and its case after it, answer. -/
theorem exec_feed_entry {i : Instr} {p : Bytes} {s : State} (hi : feedPacket i = some p)
    (hl : p.length ≤ s.cfg.pktMax) :
    exec i s = .next (s.finishFeed (feedEntry p s.frm (fun h => feedBody s.cfg p i h s.frm))) := by
  rw [exec_feed hi, feedCommandWith, if_neg (by omega)]

theorem feedEntry_short {p : Bytes} (h12 : p.length < 12) (f : FrameRegs) (body : HeaderInfo → Status × FrameRegs) :
    feedEntry p f body = (.malformedPacket, f) := if_pos h12

theorem feedEntry_badHeader {p : Bytes} (h12 : 12 ≤ p.length) (hp : parseHeader p = none) (f : FrameRegs)
    (body : HeaderInfo → Status × FrameRegs) : feedEntry p f body = (.malformedHeader, f) := by
  rw [feedEntry, if_neg (by simp only [headerLen]; omega), hp]

theorem feedEntry_emptyPayload {p : Bytes} {h : HeaderInfo} (hp : parseHeader p = some h) (he : h.ps = h.pe)
    (f : FrameRegs) (body : HeaderInfo → Status × FrameRegs) : feedEntry p f body = (.malformedPacket, f) := by
  have h12 := parseHeader_length hp
  rw [feedEntry, if_neg (by simp only [headerLen]; omega), hp]
  exact if_pos (by omega)

/-- Settles O18: each clause is one way out of FEED's entry, with FRM unchanged. -/
theorem feedEntryFailures : Obligations.FeedEntryFailures := by
  intro i s p hi hl
  rw [exec_feed_entry hi hl]
  refine ⟨fun h12 => ?_, fun h12 hp => ?_, fun h hp he => ?_⟩
  · rw [feedEntry_short h12]
    rfl
  · rw [feedEntry_badHeader h12 hp]
    rfl
  · rw [feedEntry_emptyPayload hp he]
    rfl

/-! ### FEED and the row its packet selects (R81) -/

/-- The entry is the same for two cases that agree on the header it passes on. -/
theorem feedEntry_congr {p : Bytes} {f : FrameRegs} {body body' : HeaderInfo → Status × FrameRegs}
    (h : ∀ hd, parseHeader p = some hd → hd.ps < hd.pe → body hd = body' hd) :
    feedEntry p f body = feedEntry p f body' := by
  by_cases h12 : p.length < 12
  · rw [feedEntry_short h12, feedEntry_short h12]
  cases hp : parseHeader p with
  | none => rw [feedEntry_badHeader (by omega) hp, feedEntry_badHeader (by omega) hp]
  | some hd =>
    rcases (parseHeader_bounds hp).2.1.eq_or_lt with he | hlt
    · rw [feedEntry_emptyPayload hp he, feedEntry_emptyPayload hp he]
    · have hh := feedHeader_some.mpr ⟨hp, hlt⟩
      rw [feedEntry_header hh, feedEntry_header hh, h hd hp hlt]

/-- Settles O19: at the dispatch FEED's case is the selected row's (`feedDispatch_row`); before it the two are one. -/
theorem feedDoesWhatItsRowDoes : Obligations.FeedDoesWhatItsRowDoes := by
  intro p s
  have hcase : ∀ h, parseHeader p = some h → h.ps < h.pe →
      feedBody s.cfg p (.cmdFeed p) h s.frm = feedBody s.cfg p (feedInstr p) h s.frm :=
    fun _ hp hlt => feedDispatch_row s.cfg hp hlt s.frm
  rw [exec_feed (p := p) rfl, exec_feed (feedPacket_feedInstr p), feedCommandWith, feedCommandWith,
    feedEntry_congr hcase]

/-! ### Windows (R82) -/

/-- Settles O26: with nothing optional the payload starts at 12 and ends with the packet, so the window at `ps` is all
of it. -/
theorem windowHoldsHeaderRoomAndData : Obligations.WindowHoldsHeaderRoomAndData := by
  intro p h hp
  refine ⟨fun off h1 h2 => ⟨length_window hp h1 h2, drop_window hp h1⟩, fun hcc hx hpf => ?_⟩
  obtain ⟨-, rfl⟩ := parseHeader_some hp
  have hx : hasExtension p = false := hx
  have hcc : csrcCount (byteAt p 0) = 0#4 := hcc
  have hpf : paddingFlag (byteAt p 0) = false := hpf
  have hps : (headerInfo p).ps = 12 := by simp [headerInfo, hdrLen, hx, csrcEnd, hcc]
  have hpe : (headerInfo p).pe = p.length := by simp [headerInfo, padLen, hpf]
  rw [window, hps, hpe]
  exact slice_all p

/-! ### The loop of FEED.STAPA (R90) -/

theorem stapaLoop_short {rest : Bytes} (hr : rest.length < 2) (c : Config) (fuel : Nat) (f : FrameRegs) :
    stapaLoop c fuel rest f = (.complete, f) := by
  cases fuel with
  | zero => rfl
  | succ n => exact if_pos hr

/-- A unit that declares more bytes than remain. -/
theorem stapaLoop_cut {hi lo : Byte} {tail : Bytes} (ht : tail.length < hi.toNat * 256 + lo.toNat) (c : Config)
    (fuel : Nat) (f : FrameRegs) :
    stapaLoop c (fuel + 1) (hi :: lo :: tail) f = (.malformedAggregation, f.discard) := by
  have hsize : (be16 (hi :: lo :: tail) 0).toNat = hi.toNat * 256 + lo.toNat := toNat_be16 _ 0
  rw [stapaLoop, hsize, if_neg (by simp), if_pos (by simpa using ht)]

/-- A unit for which the frame has no room. -/
theorem stapaLoop_overflow {u : Bytes} (hu : u.length < 2 ^ 16) (tail : Bytes) {c : Config} {f : FrameRegs}
    (hf : ¬ (f.len + u.length ≤ c.frameBufMax ∧ c.partsFit (f.parts.length + 1) = true)) (fuel : Nat) :
    stapaLoop c (fuel + 1) (stapaUnit u ++ tail) f = (.frameOverflow, f.discard) := by
  obtain ⟨hsize, hlen, hslice, -⟩ := stapaUnit_append u tail hu
  rw [stapaLoop, hsize, hlen, hslice, if_neg (by omega), if_neg (by omega), frmAppend_overflows hf]

theorem length_le_length_flatMap_stapaUnit (units : List Bytes) :
    units.length ≤ (units.flatMap stapaUnit).length := by
  induction units with
  | nil => simp
  | cons u us ih =>
    have hu : 1 ≤ (stapaUnit u).length := by simp [stapaUnit, u16be]
    simp only [List.flatMap_cons, List.length_append, List.length_cons]
    omega

/-- FEED.STAPA of whole units that fit, followed by a rest, comes to that rest with the units' parts in the frame, and
with fuel left. -/
theorem feedStapa_units {c : Config} {p : Bytes} {h : HeaderInfo} {units : List Bytes} {rest : Bytes}
    (hp : parseHeader p = some h) (hlt : h.ps < h.pe)
    (hs : slice p (h.ps + 1) h.pe = units.flatMap stapaUnit ++ rest) (hu : ∀ u ∈ units, u.length < 2 ^ 16)
    (hl : (units.map List.length).sum ≤ c.frameBufMax) (hn : c.partsFit units.length = true) (f : FrameRegs) :
    ∃ fuel, feedStapa c p h f =
      stapaLoop c (fuel + 1) rest (pushUnits units ((frmReset h.ssrc h.ts).withNalType 24#5)) := by
  have hlen := length_slice p (h.ps + 1) h.pe (parseHeader_bounds hp).2.2
  rw [hs, List.length_append] at hlen
  have hunits := length_le_length_flatMap_stapaUnit units
  refine ⟨h.pe - h.ps - units.length - 1, ?_⟩
  have hfuel : h.pe - h.ps = h.pe - h.ps - units.length - 1 + 1 + units.length := by omega
  conv_lhs => rw [feedStapa, hs, hfuel]
  exact stapaLoop_units c rest units _ _ hu (by simpa using hl) (by simpa using hn)

theorem feedDispatch_stapa {p : Bytes} {h : HeaderInfo} (ht : (byteAt p h.ps).toNat % 32 = 24) (c : Config)
    (f : FrameRegs) : feedDispatch c p h f = feedStapa c p h f := by
  simp only [feedDispatch, nalTypeField_toNat]
  rw [if_neg (by omega), if_neg (by omega), if_pos ht]

theorem feedBody_stapa {i : Instr} {p : Bytes} {h : HeaderInfo} (c : Config) (f : FrameRegs)
    (hi : i ∈ [Instr.feedStapa p, .cmdFeed p]) (ht : (byteAt p h.ps).toNat % 32 = 24) :
    feedPacket i = some p ∧ feedBody c p i h f = feedStapa c p h f := by
  simp only [List.mem_cons, List.not_mem_nil, or_false] at hi
  rcases hi with rfl | rfl
  · exact ⟨rfl, rfl⟩
  · exact ⟨rfl, feedDispatch_stapa ht c f⟩

/-- The parts of the units, each with the type of its first byte (R90). -/
theorem map_unit_part (units : List Bytes) :
    units.map (fun u => (⟨match u with | [] => 0#5 | b :: _ => BitVec.ofNat 5 b.toNat, u, none⟩ : Part)) =
      units.map (fun u => ⟨unitType u, u, none⟩) := by
  refine List.map_congr_left fun u _ => ?_
  cases u with
  | nil => rfl
  | cons b rest => rw [unitType, nalTypeField_eq_ofNat]

/-- Settles O22: the loop comes to the rest with the units' parts in the frame (`feedStapa_units`), and each clause is
one end of the loop there. -/
theorem stapaAnswers : Obligations.StapaAnswers := by
  intro s p h i units rest hi ht hv hl hp hlt hs hu hsum hn empty done
  obtain ⟨hpkt, hbody⟩ := feedBody_stapa s.cfg s.frm hi ht
  obtain ⟨fuel, hloop⟩ := feedStapa_units hp hlt hs hu hsum hn s.frm
  have hdone : pushUnits units ((frmReset h.ssrc h.ts).withNalType 24#5) = done := by
    simp only [pushUnits, withNalType_len, frmReset_len, Nat.zero_add, ← map_unit_part]
    rfl
  have hparts : done.parts.length = units.length := List.length_map _
  rw [exec_feed_header hpkt hl hp hlt, hbody, hloop, hdone]
  refine ⟨fun hr => ?_, ?_, ?_⟩
  · rw [stapaLoop_short hr]
    rfl
  · rintro hi lo tail rfl htail
    rw [stapaLoop_cut htail]
    rfl
  · rintro u tail rfl hu hno
    rw [stapaLoop_overflow hu tail (hparts ▸ hno)]
    rfl

end Sys2Proof.Proofs

/-! PROOFS. FU-A continuations and whole FU-A sequences (41_h264_deframer.md R86 to R89, R92): what an append leaves in the
buffer and the windows, and the run over a start, its middles and its end. -/

namespace Sys2Proof.Proofs

open Sys2Proof.Machine Sys2Proof.Laws

/-! ### What an append leaves (R84, R38) -/

@[simp] theorem push_buffer (f : FrameRegs) (t : BitVec 5) (d : Bytes) (w : Option Bytes) :
    (f.push t d w).buffer = f.buffer ++ d := by
  simp [FrameRegs.buffer]

theorem push_readWindow {f : FrameRegs} {k : Nat} (hk : k < f.parts.length) (t : BitVec 5) (d : Bytes)
    (w : Option Bytes) (a : Nat) : (f.push t d w).readWindow k a = f.readWindow k a := by
  rw [FrameRegs.readWindow, push_parts, List.getElem?_append_left hk, FrameRegs.readWindow]

/-! ### One FU-A packet (R86 to R89) -/

/-- The frame with the fragment of the packet `p` appended (R88). -/
def pushFragment (p : Bytes) (h : HeaderInfo) (f : FrameRegs) : FrameRegs :=
  f.push (nalTypeField (byteAt p (h.ps + 1))) (slice p (h.ps + 2) h.pe) (some (window p h (h.ps + 2)))

/-- The status a fragment ends with when it has room, by `E` (R89). -/
def fragmentStatus (fin : Bool) : Status := if fin then .complete else .pending

/-- The FU-A case answers COMPLETE or PENDING only by appending its fragment. -/
theorem fuaAnswer_appended {c : Config} {p : Bytes} {h : HeaderInfo} {start fin : Bool} {f : FrameRegs}
    (hst : (fuaAnswer c p h start fin f).1 ∈ [Status.pending, .complete]) :
    (fuaAnswer c p h start fin f).2 = pushFragment p h (fuaBase p h start f) := by
  by_cases h2 : h.pe - h.ps < 2
  · rw [fuaAnswer, if_pos h2] at hst
    simp at hst
  · rw [fuaAnswer, if_neg h2, fuaFragment] at hst ⊢
    cases hr : (fuaBase p h start f).hasRoom c (slice p (h.ps + 2) h.pe) with
    | true => rw [frmAppend_room hr]; rfl
    | false => rw [frmAppend_full hr] at hst; simp at hst

/-- Settles O27: from a good state the buffer holds `len` bytes (`length_buffer`), and the answer appends to it. -/
theorem continuationAppendsBytes : Obligations.ContinuationAppendsBytes := by
  intro s t p h i r hi hs hp ht hr hst
  obtain ⟨fin, hi⟩ : ∃ fin, i = fuaRow false fin p := by
    simp only [List.mem_cons, List.not_mem_nil, or_false] at hi
    rcases hi with rfl | rfl
    exacts [⟨false, rfl⟩, ⟨true, rfl⟩]
  have hpkt : feedPacket i = some p := by rw [hi]; cases fin <;> rfl
  obtain ⟨-, hm, -⟩ := (good_iff s).mp hs
  have hlen := length_buffer hm
  have hfrm : t.frm = pushFragment p h s.frm := by
    rw [exec_feed hpkt] at ht
    obtain ⟨-, ⟨-, rfl | rfl⟩ | ⟨h', hp', -, rfl⟩⟩ := feedCommandWith_next ht
    · cases hr; simp at hst
    · cases hr; simp at hst
    · cases hr
      cases hp.symm.trans hp'
      rw [hi, feedBody_fuaRow] at hst ⊢
      exact fuaAnswer_appended hst
  rw [hfrm]
  refine ⟨fun a ha => ?_, fun a => ?_, fun k a hk => push_readWindow hk ..⟩
  · rw [FrameRegs.readByte, pushFragment, push_buffer, List.getElem?_append_left (by omega), FrameRegs.readByte]
  · rw [FrameRegs.readByte, pushFragment, push_buffer, List.getElem?_append_right (by omega), hlen,
      Nat.add_sub_cancel_left, getElem?_slice]

/-! ### A FU-A sequence (R92) -/

/-- What a packet that selects a FU-A row holds: a header, and a payload with its FU header. -/
theorem header_of_fuaRow {p : Bytes} {start fin : Bool} (hi : feedInstr p = fuaRow start fin p) :
    ∃ h, parseHeader p = some h ∧ h.ps < h.pe ∧ 2 ≤ h.pe - h.ps := by
  have hform : fuaForm start fin p = true := by
    have hw := feedInstr_wellFormed p
    rw [hi] at hw
    cases start <;> cases fin <;> exact hw
  rw [fuaForm] at hform
  cases hh : feedHeader p with
  | none => rw [hh] at hform; cases hform
  | some h =>
    rw [hh] at hform
    simp only [Bool.and_eq_true, decide_eq_true_eq] at hform
    obtain ⟨⟨⟨-, h2⟩, -⟩, -⟩ := hform
    obtain ⟨hp, hlt⟩ := feedHeader_some.mp hh
    exact ⟨h, hp, hlt, h2⟩

theorem slice_eq_fuaFragmentBytes {p : Bytes} {h : HeaderInfo} (hp : parseHeader p = some h) :
    slice p (h.ps + 2) h.pe = fuaFragmentBytes p := by
  simp only [fuaFragmentBytes, hp, parseHeader_payload hp, drop_slice]

/-- The frame holds these scalars and bytes, in `n` parts, and counts them. -/
structure Holds (f : FrameRegs) (nal : BitVec 5) (ssrc ts : U32) (bytes : Bytes) (n : Nat) : Prop where
  nalType : f.nalType = nal
  ssrc : f.ssrc = ssrc
  ts : f.ts = ts
  buffer : f.buffer = bytes
  len : f.len = bytes.length
  parts : f.parts.length = n

section
variable {nal : BitVec 5} {ssrc ts : U32} {bytes : Bytes} {n : Nat}

theorem Holds.append_fragment {f : FrameRegs} {p : Bytes} {h : HeaderInfo} (hf : Holds f nal ssrc ts bytes n)
    (hp : parseHeader p = some h) :
    Holds (pushFragment p h f) nal ssrc ts (bytes ++ fuaFragmentBytes p) (n + 1) := by
  obtain ⟨hnal, hssrc, hts, hbuf, hlen, hparts⟩ := hf
  rw [pushFragment, slice_eq_fuaFragmentBytes hp]
  exact ⟨hnal, hssrc, hts, by rw [push_buffer, hbuf], by simp [hlen], by simp [hparts]⟩

/-- A fragment that fits the frame it joins is appended (R88, R89). -/
theorem exec_fuaRow_fits {p : Bytes} {h : HeaderInfo} {start fin : Bool} {u : State}
    (hi : feedInstr p = fuaRow start fin p) (hp : parseHeader p = some h)
    (hl : p.length ≤ u.cfg.pktMax) (hf : Holds (fuaBase p h start u.frm) nal ssrc ts bytes n)
    (hfit : bytes.length + (fuaFragmentBytes p).length ≤ u.cfg.frameBufMax) (hn : u.cfg.partsFit (n + 1) = true) :
    exec (feedInstr p) u =
      .next (u.finishFeed (fragmentStatus fin, pushFragment p h (fuaBase p h start u.frm))) := by
  obtain ⟨h', hp', hlt, h2⟩ := header_of_fuaRow hi
  cases hp.symm.trans hp'
  have hroom : (fuaBase p h start u.frm).len + (slice p (h.ps + 2) h.pe).length ≤ u.cfg.frameBufMax := by
    rw [hf.len, slice_eq_fuaFragmentBytes hp]
    exact hfit
  rw [exec_feed_header (feedPacket_feedInstr p) hl hp hlt, hi, feedBody_fuaRow, fuaAnswer, if_neg (by omega),
    fuaFragment, frmAppend_fits hroom (by rw [hf.parts]; exact hn)]
  rfl

theorem step_feedCommand {u : State} {p : Bytes} {rest : List Command} (hc : u.issued = feedCommand p :: rest) :
    step u = exec (feedInstr p) (u.withIssued rest) := by
  rw [stepRunsNextCommand u _ rest hc, decode_feedCommand]

/-- Within a FU-A sequence: the last packet answered PENDING, the packets `todo` are yet to feed, and FRM holds the bytes
fed so far. -/
structure Collecting (u : State) (todo : List Bytes) (nal : BitVec 5) (ssrc ts : U32) (bytes : Bytes) (n : Nat) :
    Prop where
  resp : u.resp = some ⟨.pending, .nothing⟩
  issued : u.issued = todo.map feedCommand
  frm : Holds u.frm nal ssrc ts bytes n

/-- The step that feeds a continuation (R88, R89). -/
theorem step_continuation {u : State} {p : Bytes} {todo : List Bytes} {fin : Bool}
    (hu : Collecting u (p :: todo) nal ssrc ts bytes n)
    (hi : feedInstr p = fuaRow false fin p) (hl : p.length ≤ u.cfg.pktMax)
    (hfit : bytes.length + (fuaFragmentBytes p).length ≤ u.cfg.frameBufMax) (hn : u.cfg.partsFit (n + 1) = true) :
    ∃ g, step u = .next ((u.withIssued (todo.map feedCommand)).finishFeed (fragmentStatus fin, g)) ∧
      Holds g nal ssrc ts (bytes ++ fuaFragmentBytes p) (n + 1) := by
  obtain ⟨h, hp, -, -⟩ := header_of_fuaRow hi
  refine ⟨_, ?_, hu.frm.append_fragment hp⟩
  rw [step_feedCommand hu.issued]
  exact exec_fuaRow_fits hi hp hl hu.frm hfit hn

/-- The step that feeds a start, whose frame begins with the rebuilt NAL header (R87). -/
theorem step_start {s : State} {p : Bytes} {todo : List Bytes} {h : HeaderInfo}
    (hc : s.issued = (p :: todo).map feedCommand) (hi : feedInstr p = fuaRow true false p) (hp : parseHeader p = some h)
    (hl : p.length ≤ s.cfg.pktMax) (hfit : 1 + (fuaFragmentBytes p).length ≤ s.cfg.frameBufMax)
    (hn : s.cfg.partsFit 2 = true) :
    ∃ g, step s = .next ((s.withIssued (todo.map feedCommand)).finishFeed (.pending, g)) ∧
      Holds g (nalTypeField (byteAt p (h.ps + 1))) h.ssrc h.ts
        (rebuiltHeader (byteAt p h.ps) (byteAt p (h.ps + 1)) :: fuaFragmentBytes p) 2 := by
  have hbase : Holds (fuaBase p h true s.frm) (nalTypeField (byteAt p (h.ps + 1))) h.ssrc h.ts
      [rebuiltHeader (byteAt p h.ps) (byteAt p (h.ps + 1))] 1 := ⟨rfl, rfl, rfl, rfl, rfl, rfl⟩
  refine ⟨_, ?_, hbase.append_fragment hp⟩
  rw [step_feedCommand hc]
  exact exec_fuaRow_fits (u := s.withIssued (todo.map feedCommand)) hi hp hl hbase hfit hn

/-- The run over the middles and the end: PENDING after each middle, COMPLETE after the end. -/
theorem run_continuations {last : Bytes} (hlast : feedInstr last = .feedFuaEnd last) (mids : List Bytes) :
    ∀ {u : State} {bytes : Bytes} {n : Nat}, Collecting u (mids ++ [last]) nal ssrc ts bytes n →
      (∀ p ∈ mids, feedInstr p = .feedFuaMiddle p) → (∀ p ∈ mids ++ [last], p.length ≤ u.cfg.pktMax) →
      bytes.length + (((mids ++ [last]).map fuaFragmentBytes).map List.length).sum ≤ u.cfg.frameBufMax →
      u.cfg.partsFit (n + mids.length + 1) = true →
      (∀ k, k ≤ mids.length →
        ∃ v : State, Host.Core.run Sys2Proof.core k u = .next v ∧ v.resp = some ⟨.pending, .nothing⟩) ∧
      (∃ t : State, Host.Core.run Sys2Proof.core (mids.length + 1) u = .next t ∧
        t.resp = some ⟨.complete, .frame t.frm⟩ ∧ t.issued = [] ∧ t.seq = u.seq ∧
        Holds t.frm nal ssrc ts (bytes ++ (mids ++ [last]).flatMap fuaFragmentBytes) (n + mids.length + 1)) := by
  induction mids with
  | nil =>
    intro u bytes n hu _ hl hfit hn
    obtain ⟨g, hstep, hg⟩ := step_continuation (fin := true) hu hlast (hl last (by simp)) (by simpa using hfit) hn
    refine ⟨fun k hk => ?_, _, (run_next hstep 0).trans (run_zero _), rfl, rfl, rfl, by simpa using hg⟩
    obtain rfl : k = 0 := Nat.le_zero.mp hk
    exact ⟨u, run_zero u, hu.resp⟩
  | cons p mids ih =>
    intro u bytes n hu hmid hl hfit hn
    simp only [List.cons_append, List.map_cons, List.sum_cons, List.length_cons] at hfit hn
    have hfit₁ : bytes.length + (fuaFragmentBytes p).length ≤ u.cfg.frameBufMax := by omega
    obtain ⟨g, hstep, hg⟩ := step_continuation (fin := false) hu (hmid p (by simp)) (hl p (by simp)) hfit₁
      (partsFit_of_le (by omega) hn)
    obtain ⟨hpending, t, hrun, hresp, hissued, hseq, hfrm⟩ := ih
      (u := (u.withIssued ((mids ++ [last]).map feedCommand)).finishFeed (.pending, g)) ⟨rfl, rfl, hg⟩
      (fun q hq => hmid q (List.mem_cons_of_mem p hq)) (fun q hq => hl q (List.mem_cons_of_mem p hq))
      (by simp only [List.length_append, finishFeed_cfg, withIssued_cfg]; omega) (partsFit_of_le (by omega) hn)
    refine ⟨fun k hk => ?_, t, (run_next hstep _).trans hrun, hresp, hissued, hseq, ?_⟩
    · cases k with
      | zero => exact ⟨u, run_zero u, hu.resp⟩
      | succ k =>
        obtain ⟨v, hv, hvr⟩ := hpending k (Nat.le_of_succ_le_succ hk)
        exact ⟨v, (run_next hstep k).trans hv, hvr⟩
    · convert hfrm using 1
      · simp
      · simp only [List.length_cons]; omega

end

/-- Settles O28: the start's step (`step_start`), and then the run over the continuations. -/
theorem fuaSequenceReassembles : Obligations.FuaSequenceReassembles := by
  intro s first last mids h hc hv hl hfirst hmids hlast hp hfit hn
  simp only [List.cons_append, List.map_cons, List.sum_cons] at hfit
  have hfit₁ : 1 + (fuaFragmentBytes first).length ≤ s.cfg.frameBufMax := by omega
  obtain ⟨g, hstep, hg⟩ := step_start (todo := mids ++ [last]) hc hfirst hp (hl first (by simp)) hfit₁ (partsFit_two hv)
  obtain ⟨hpending, t, hrun, hresp, hissued, hseq, hfrm⟩ := run_continuations hlast mids
    (u := (s.withIssued ((mids ++ [last]).map feedCommand)).finishFeed (.pending, g)) ⟨rfl, rfl, hg⟩ hmids
    (fun p hp => hl p (List.mem_cons_of_mem first hp))
    (by simp only [List.length_cons, finishFeed_cfg, withIssued_cfg]; omega) (partsFit_of_le (by omega) hn)
  obtain ⟨hnal, hssrc, hts, hbuf, -, -⟩ := hfrm
  refine ⟨fun k hk => ?_, t, (run_next hstep _).trans hrun, hresp, hissued, hseq, hnal, hssrc, hts, ?_⟩
  · obtain ⟨u, hu, hur⟩ := hpending k hk
    exact ⟨u, (run_next hstep k).trans hu, hur⟩
  · rw [hbuf]
    rfl

end Sys2Proof.Proofs

/-! PROOFS. What FEED reads of its packet (30_encoding.md R73, 41_h264_deframer.md R93): two packets that differ in the
version, marker, payload type and sequence number only are the same to it but for the windows. -/

namespace Sys2Proof.Proofs

open Sys2Proof.Machine Sys2Proof.Laws

/-! ### The reads of two packets that FEED does not tell apart -/

/-- The packets differ at most in the version bits of byte 0 and in bytes 1 to 3 (R63). -/
structure SameToFeed (p p' : Bytes) : Prop where
  length : p.length = p'.length
  flags : (byteAt p 0).toNat % 64 = (byteAt p' 0).toNat % 64
  tail : p.drop 4 = p'.drop 4

theorem byteAt_drop (p : Bytes) (k i : Nat) : byteAt (p.drop k) i = byteAt p (k + i) := by
  simp [byteAt, List.getD_eq_getElem?_getD]

section
variable {p p' : Bytes} (hs : SameToFeed p p')
include hs

theorem SameToFeed.byteAt_eq {i : Nat} (hi : 4 ≤ i) : byteAt p i = byteAt p' i := by
  rw [← Nat.add_sub_of_le hi, ← byteAt_drop, hs.tail, byteAt_drop]

theorem SameToFeed.slice_eq {a : Nat} (ha : 4 ≤ a) (b : Nat) : slice p a b = slice p' a b := by
  rw [slice, slice, ← Nat.add_sub_of_le ha, ← List.drop_drop, hs.tail, List.drop_drop]

theorem SameToFeed.paddingFlag_eq : paddingFlag (byteAt p 0) = paddingFlag (byteAt p' 0) := by
  have hf := hs.flags
  rw [paddingFlag_eq_div, paddingFlag_eq_div, decide_eq_decide]
  omega

theorem SameToFeed.hasExtension_eq : hasExtension p = hasExtension p' := by
  have hf := hs.flags
  rw [hasExtension_eq_div, hasExtension_eq_div, decide_eq_decide]
  omega

theorem SameToFeed.csrcEnd_eq : csrcEnd p = csrcEnd p' := by
  have hf := hs.flags
  rw [csrcEnd_eq_mod, csrcEnd_eq_mod]
  omega

theorem SameToFeed.be32_eq {i : Nat} (hi : 4 ≤ i) : be32 p i = be32 p' i := by
  rw [be32, be32, hs.byteAt_eq hi, hs.byteAt_eq (by omega : 4 ≤ i + 1), hs.byteAt_eq (by omega : 4 ≤ i + 2),
    hs.byteAt_eq (by omega : 4 ≤ i + 3)]

theorem SameToFeed.hdrLen_eq : hdrLen p = hdrLen p' := by
  have h12 : 12 ≤ csrcEnd p' := by rw [csrcEnd_eq_mod]; omega
  have hxl : extLength p = extLength p' := by
    rw [extLength, extLength, hs.hasExtension_eq, hs.csrcEnd_eq, be16, be16,
      hs.byteAt_eq (by omega : 4 ≤ csrcEnd p' + 2), hs.byteAt_eq (by omega : 4 ≤ csrcEnd p' + 2 + 1)]
  rw [hdrLen, hdrLen, hs.hasExtension_eq, hs.csrcEnd_eq, hxl]

/-- The padding count is the last byte, which is past byte 3 in a packet as long as a header. -/
theorem SameToFeed.padLen_eq (h12 : 12 ≤ p'.length) : padLen p = padLen p' := by
  rw [padLen, padLen, hs.paddingFlag_eq, hs.length, hs.byteAt_eq (by omega : 4 ≤ p'.length - 1)]

theorem SameToFeed.headerFits_eq : headerFits p = headerFits p' := by
  rw [Bool.eq_iff_iff, headerFits_iff, headerFits_iff, hs.length, hs.csrcEnd_eq, hs.hasExtension_eq, hs.hdrLen_eq]
  refine and_congr_right fun h12 => ?_
  rw [hs.padLen_eq h12]

end

/-- The header fields FEED reads agree: the payload's offsets, the timestamp and the SSRC (R81). -/
structure SameHeader (h h' : HeaderInfo) : Prop where
  ps : h.ps = h'.ps
  pe : h.pe = h'.pe
  ts : h.ts = h'.ts
  ssrc : h.ssrc = h'.ssrc

theorem SameToFeed.sameHeader {p p' : Bytes} (hs : SameToFeed p p') (h12 : 12 ≤ p'.length) :
    SameHeader (headerInfo p) (headerInfo p') where
  ps := hs.hdrLen_eq
  pe := by simp only [headerInfo, hs.length, hs.padLen_eq h12]
  ts := hs.be32_eq le_rfl
  ssrc := hs.be32_eq (by decide)

/-! ### The same answer but for the windows -/

/-- The answers have the same status, and the same frame but for the windows. -/
def SameButWindows (r r' : Status × FrameRegs) : Prop :=
  r.1 = r'.1 ∧ r.2.eraseWindows = r'.2.eraseWindows

theorem SameButWindows.refl (r : Status × FrameRegs) : SameButWindows r r := ⟨rfl, rfl⟩

/-- Whether a part has room, and what else it leaves, does not depend on its window (R84). -/
theorem frmAppend_sameButWindows (c : Config) (t : BitVec 5) (d : Bytes) (w w' : Option Bytes) (f : FrameRegs)
    (st : Status) :
    SameButWindows (frmAppend c t d w f (fun g => (st, g))) (frmAppend c t d w' f (fun g => (st, g))) := by
  unfold frmAppend
  split
  · exact ⟨rfl, by simp [FrameRegs.eraseWindows, FrameRegs.push]⟩
  · exact .refl _

section
variable {p p' : Bytes} {h h' : HeaderInfo} (hs : SameToFeed p p') (hh : SameHeader h h') (h12 : 12 ≤ h'.ps) (c : Config)
include hs hh h12

theorem feedSingle_sameButWindows (f : FrameRegs) : SameButWindows (feedSingle c p h f) (feedSingle c p' h' f) := by
  rw [feedSingle, feedSingle, hh.ps, hh.pe, hh.ts, hh.ssrc, hs.byteAt_eq (by omega : 4 ≤ h'.ps),
    hs.slice_eq (by omega : 4 ≤ h'.ps)]
  exact frmAppend_sameButWindows ..

theorem feedFua_sameButWindows (f : FrameRegs) : SameButWindows (feedFua c p h f) (feedFua c p' h' f) := by
  rw [feedFua_eq, feedFua_eq, fuaAnswer, fuaAnswer, fuaFragment, fuaFragment, fuaBase, fuaBase, hh.ps, hh.pe, hh.ts,
    hh.ssrc, hs.byteAt_eq (by omega : 4 ≤ h'.ps), hs.byteAt_eq (by omega : 4 ≤ h'.ps + 1),
    hs.slice_eq (by omega : 4 ≤ h'.ps + 2)]
  split
  · exact .refl _
  · exact frmAppend_sameButWindows ..

theorem feedStapa_sameButWindows (f : FrameRegs) : SameButWindows (feedStapa c p h f) (feedStapa c p' h' f) := by
  rw [feedStapa, feedStapa, hh.ps, hh.pe, hh.ts, hh.ssrc, hs.slice_eq (by omega : 4 ≤ h'.ps + 1)]
  exact .refl _

theorem feedDispatch_sameButWindows (f : FrameRegs) :
    SameButWindows (feedDispatch c p h f) (feedDispatch c p' h' f) := by
  simp only [feedDispatch, hh.ps, hs.byteAt_eq (by omega : 4 ≤ h'.ps)]
  split_ifs
  · exact feedSingle_sameButWindows hs hh h12 c f
  · exact feedFua_sameButWindows hs hh h12 c f
  · exact feedStapa_sameButWindows hs hh h12 c f
  · exact .refl _

end

theorem feedEntry_sameButWindows {p p' : Bytes} (hs : SameToFeed p p') (c : Config) (f : FrameRegs) :
    SameButWindows (feedEntry p f (fun h => feedDispatch c p h f)) (feedEntry p' f (fun h => feedDispatch c p' h f)) := by
  unfold feedEntry parseHeader
  rw [hs.length, hs.headerFits_eq]
  split_ifs with hshort hfits
  · exact .refl _
  · have h12 : 12 ≤ p'.length := Nat.le_of_not_lt hshort
    have hh := hs.sameHeader h12
    simp only [hh.ps, hh.pe]
    split_ifs
    · exact .refl _
    · exact feedDispatch_sameButWindows hs hh (headerLen_le_hdrLen p') c f
  · exact .refl _

/-- Settles O29: the two packets are the same to FEED's entry and dispatch, whose answers give status and frame. -/
theorem feedIgnoresVersionMarkerTypeAndSequence : Obligations.FeedIgnoresVersionMarkerTypeAndSequence := by
  intro s t u b0 b0' b1 b1' b2 b2' b3 b3' rest hflags ht hu
  have hs : SameToFeed (b0 :: b1 :: b2 :: b3 :: rest) (b0' :: b1' :: b2' :: b3' :: rest) := ⟨rfl, hflags, rfl⟩
  obtain ⟨hst, hfrm⟩ := feedEntry_sameButWindows hs s.cfg s.frm
  rw [exec_feed_next rfl ht, exec_feed_next rfl hu]
  exact ⟨congrArg some hst, hfrm⟩

end Sys2Proof.Proofs
